-- ==== Sys2Proof/Word.lean ====
section
/-! DEFINITION. The word types of the Chip8 CORE (rule R8, R6): every quantity is an unsigned bit vector of a fixed width. -/

namespace Sys2Proof

/-- A 16-bit word: an opcode, the program counter, the index register, a stack entry (rules R22, R23, R24, R80). -/
abbrev Word := BitVec 16

/-- An 8-bit value: a register, a timer, a memory byte, an immediate (rules R8, R20, R25, R29). -/
abbrev Byte := BitVec 8

/-- A 12-bit Address operand (rule R8). -/
abbrev Address := BitVec 12

/-- A 4-bit Nibble operand (rule R8). -/
abbrev Nibble := BitVec 4

/-- A 4-bit register index (rule R8). -/
abbrev RegIdx := BitVec 4

end Sys2Proof
end

