-- ==== Sys2Proof/Syntax.lean ====
section
/-! DEFINITION. The Instruction Model of rule R83: one constructor for each of the 36 rows of spec/opcode_table.json, in the
table's order, each holding exactly its operand fields (rules R81, R84). -/

namespace Sys2Proof

/-- A decoded instruction (rule R83). `invalid` keeps the raw word for the diagnostic (rules R84, R120). -/
inductive Instr where
  | clearDisplay
  | ret
  | sys (nnn : Address)
  | jump (nnn : Address)
  | call (nnn : Address)
  | skipEqualK (x : RegIdx) (kk : Byte)
  | skipNotEqualK (x : RegIdx) (kk : Byte)
  | skipEqual (x y : RegIdx)
  | storeK (x : RegIdx) (kk : Byte)
  | addK (x : RegIdx) (kk : Byte)
  | store (x y : RegIdx)
  | or (x y : RegIdx)
  | and (x y : RegIdx)
  | xor (x y : RegIdx)
  | add (x y : RegIdx)
  | sub (x y : RegIdx)
  | shiftRight (x y : RegIdx)
  | subReversed (x y : RegIdx)
  | shiftLeft (x y : RegIdx)
  | skipNotEqual (x y : RegIdx)
  | storeI (nnn : Address)
  | jumpOffset (nnn : Address)
  | random (x : RegIdx) (kk : Byte)
  | draw (x y : RegIdx) (n : Nibble)
  | skipKeyPressed (x : RegIdx)
  | skipKeyNotPressed (x : RegIdx)
  | readDelayTimer (x : RegIdx)
  | waitForKeypressAndStore (x : RegIdx)
  | setDelayTimer (x : RegIdx)
  | setSoundTimer (x : RegIdx)
  | addI (x : RegIdx)
  | glyphAddress (x : RegIdx)
  | storeBCD (x : RegIdx)
  | storeRegisters (x : RegIdx)
  | loadRegisters (x : RegIdx)
  | invalid (w : Word)
deriving DecidableEq, Repr

end Sys2Proof
end

