-- ==== Sys2Proof/WellFormed.lean ====
section
/-! DEFINITION. Which instruction terms some word decodes to: `sys` never names 0x0E0 or 0x0EE (rules R86, R92), and `invalid`
holds only a word of the Invalid set (rule R90). -/

namespace Sys2Proof

/-- The Invalid set of rule R90, by the word's number: 9808 of the 65536 words. -/
def invalidWord (w : Word) : Bool :=
  let family := w.toNat / 4096
  let lowNibble := w.toNat % 16
  let lowByte := w.toNat % 256
  (family == 0x8 && [0x8, 0x9, 0xA, 0xB, 0xC, 0xD, 0xF].contains lowNibble) ||
  (family == 0xE && !([0x9E, 0xA1].contains lowByte)) ||
  (family == 0xF && !([0x07, 0x0A, 0x15, 0x18, 0x1E, 0x29, 0x33, 0x55, 0x65].contains lowByte))

/-- An instruction term that stands for at least one word (rules R90, R92). -/
def Instr.wellFormed : Instr → Bool
  | .sys nnn => nnn != 0x0E0 && nnn != 0x0EE
  | .invalid w => invalidWord w
  | .clearDisplay | .ret | .jump _ | .call _ | .skipEqualK _ _ | .skipNotEqualK _ _ | .skipEqual _ _
  | .storeK _ _ | .addK _ _ | .store _ _ | .or _ _ | .and _ _ | .xor _ _ | .add _ _ | .sub _ _
  | .shiftRight _ _ | .subReversed _ _ | .shiftLeft _ _ | .skipNotEqual _ _ | .storeI _ | .jumpOffset _
  | .random _ _ | .draw _ _ _ | .skipKeyPressed _ | .skipKeyNotPressed _ | .readDelayTimer _
  | .waitForKeypressAndStore _ | .setDelayTimer _ | .setSoundTimer _ | .addI _ | .glyphAddress _
  | .storeBCD _ | .storeRegisters _ | .loadRegisters _ => true

end Sys2Proof
end

