-- ==== Sys2Proof/Decode.lean ====
section
/-! DEFINITION. The Field Extractors (rule R81), the Decoder (rules R82, R86 to R89), the opcode map as a priority table
(rules R83, R97) and the canonical encoder (rule R92). -/

namespace Sys2Proof

/-! ### The Field Extractors (rule R81) -/

/-- `op`, the family nibble `w[15:12]`. -/
def fieldOp (w : Word) : Nibble := w.extractLsb' 12 4

/-- `x`, the first register index `w[11:8]`. -/
def fieldX (w : Word) : RegIdx := w.extractLsb' 8 4

/-- `y`, the second register index `w[7:4]`. -/
def fieldY (w : Word) : RegIdx := w.extractLsb' 4 4

/-- `n`, the low nibble `w[3:0]`. -/
def fieldN (w : Word) : Nibble := w.extractLsb' 0 4

/-- `kk`, the low byte `w[7:0]`. -/
def fieldKK (w : Word) : Byte := w.extractLsb' 0 8

/-- `nnn`, the low twelve bits `w[11:0]`. -/
def fieldNNN (w : Word) : Address := w.extractLsb' 0 12

/-! ### The Decoder (rule R82) -/

/-- Family 0: `0x00E0` and `0x00EE` on all 16 bits, every other word is `Sys` (rule R86). -/
def decodeFamily0 (w : Word) : Instr :=
  if w = 0x00E0#16 then .clearDisplay
  else if w = 0x00EE#16 then .ret
  else .sys (fieldNNN w)

/-- Family 8: the second discriminant is the low nibble (rule R87). -/
def decodeFamily8 (w : Word) : Instr :=
  match fieldN w with
  | 0x0#4 => .store (fieldX w) (fieldY w)
  | 0x1#4 => .or (fieldX w) (fieldY w)
  | 0x2#4 => .and (fieldX w) (fieldY w)
  | 0x3#4 => .xor (fieldX w) (fieldY w)
  | 0x4#4 => .add (fieldX w) (fieldY w)
  | 0x5#4 => .sub (fieldX w) (fieldY w)
  | 0x6#4 => .shiftRight (fieldX w) (fieldY w)
  | 0x7#4 => .subReversed (fieldX w) (fieldY w)
  | 0xE#4 => .shiftLeft (fieldX w) (fieldY w)
  | _ => .invalid w

/-- Family E: the second discriminant is the low byte (rule R88). -/
def decodeFamilyE (w : Word) : Instr :=
  match fieldKK w with
  | 0x9E#8 => .skipKeyPressed (fieldX w)
  | 0xA1#8 => .skipKeyNotPressed (fieldX w)
  | _ => .invalid w

/-- Family F: the second discriminant is the low byte (rule R88). -/
def decodeFamilyF (w : Word) : Instr :=
  match fieldKK w with
  | 0x07#8 => .readDelayTimer (fieldX w)
  | 0x0A#8 => .waitForKeypressAndStore (fieldX w)
  | 0x15#8 => .setDelayTimer (fieldX w)
  | 0x18#8 => .setSoundTimer (fieldX w)
  | 0x1E#8 => .addI (fieldX w)
  | 0x29#8 => .glyphAddress (fieldX w)
  | 0x33#8 => .storeBCD (fieldX w)
  | 0x55#8 => .storeRegisters (fieldX w)
  | 0x65#8 => .loadRegisters (fieldX w)
  | _ => .invalid w

/-- The Decoder (rule R82): total on words; the low nibble of families 5 and 9 is not examined (rule R89). -/
def decode (w : Word) : Instr :=
  match fieldOp w with
  | 0x0#4 => decodeFamily0 w
  | 0x1#4 => .jump (fieldNNN w)
  | 0x2#4 => .call (fieldNNN w)
  | 0x3#4 => .skipEqualK (fieldX w) (fieldKK w)
  | 0x4#4 => .skipNotEqualK (fieldX w) (fieldKK w)
  | 0x5#4 => .skipEqual (fieldX w) (fieldY w)
  | 0x6#4 => .storeK (fieldX w) (fieldKK w)
  | 0x7#4 => .addK (fieldX w) (fieldKK w)
  | 0x8#4 => decodeFamily8 w
  | 0x9#4 => .skipNotEqual (fieldX w) (fieldY w)
  | 0xA#4 => .storeI (fieldNNN w)
  | 0xB#4 => .jumpOffset (fieldNNN w)
  | 0xC#4 => .random (fieldX w) (fieldKK w)
  | 0xD#4 => .draw (fieldX w) (fieldY w) (fieldN w)
  | 0xE#4 => decodeFamilyE w
  | _ => decodeFamilyF w

/-- The opcode at two consecutive bytes: the byte at the lower address is the high byte (rules R62, R80). -/
def wordOfBytes (high low : Byte) : Word := high ++ low

/-- Why a sequence of bytes holds no instruction. -/
inductive DecodeError where
  /-- fewer than the two bytes of one instruction (rule R80) -/
  | truncated
deriving DecidableEq, Repr

/-- Decoding a sequence of bytes: the first instruction and the bytes after it. Only a sequence of fewer than two bytes is
rejected, since every word decodes (rule R91). -/
def decodeBytes : List Byte → Except DecodeError (Instr × List Byte)
  | high :: low :: rest => .ok (decode (wordOfBytes high low), rest)
  | _ => .error .truncated

/-! ### The canonical encoder (rules R84, R92) -/

/-- Format NNN of rule R84: `op nnn`. -/
def wordNNN (op : Nibble) (nnn : Address) : Word := op ++ nnn

/-- Format XKK of rule R84: `op x kk`. -/
def wordXKK (op : Nibble) (x : RegIdx) (kk : Byte) : Word := op ++ x ++ kk

/-- Formats XY and XYN of rule R84: `op x y n`. -/
def wordXYN (op : Nibble) (x y : RegIdx) (n : Nibble) : Word := op ++ x ++ y ++ n

/-- The canonical encoding of rule R92. -/
def encode : Instr → Word
  | .clearDisplay => 0x00E0#16
  | .ret => 0x00EE#16
  | .sys nnn => wordNNN 0x0 nnn
  | .jump nnn => wordNNN 0x1 nnn
  | .call nnn => wordNNN 0x2 nnn
  | .skipEqualK x kk => wordXKK 0x3 x kk
  | .skipNotEqualK x kk => wordXKK 0x4 x kk
  | .skipEqual x y => wordXYN 0x5 x y 0x0
  | .storeK x kk => wordXKK 0x6 x kk
  | .addK x kk => wordXKK 0x7 x kk
  | .store x y => wordXYN 0x8 x y 0x0
  | .or x y => wordXYN 0x8 x y 0x1
  | .and x y => wordXYN 0x8 x y 0x2
  | .xor x y => wordXYN 0x8 x y 0x3
  | .add x y => wordXYN 0x8 x y 0x4
  | .sub x y => wordXYN 0x8 x y 0x5
  | .shiftRight x y => wordXYN 0x8 x y 0x6
  | .subReversed x y => wordXYN 0x8 x y 0x7
  | .shiftLeft x y => wordXYN 0x8 x y 0xE
  | .skipNotEqual x y => wordXYN 0x9 x y 0x0
  | .storeI nnn => wordNNN 0xA nnn
  | .jumpOffset nnn => wordNNN 0xB nnn
  | .random x kk => wordXKK 0xC x kk
  | .draw x y n => wordXYN 0xD x y n
  | .skipKeyPressed x => wordXKK 0xE x 0x9E
  | .skipKeyNotPressed x => wordXKK 0xE x 0xA1
  | .readDelayTimer x => wordXKK 0xF x 0x07
  | .waitForKeypressAndStore x => wordXKK 0xF x 0x0A
  | .setDelayTimer x => wordXKK 0xF x 0x15
  | .setSoundTimer x => wordXKK 0xF x 0x18
  | .addI x => wordXKK 0xF x 0x1E
  | .glyphAddress x => wordXKK 0xF x 0x29
  | .storeBCD x => wordXKK 0xF x 0x33
  | .storeRegisters x => wordXKK 0xF x 0x55
  | .loadRegisters x => wordXKK 0xF x 0x65
  | .invalid w => w

/-! ### The opcode map as a table tried in order (rules R83, R97) -/

/-- One line of the opcode map, `row` its number in rule R83: a word `w` matches when `w AND mask = pattern`. -/
structure OpcodeLine where
  row     : Nat
  pattern : Word
  mask    : Word
deriving DecidableEq, Repr

/-- The `match` and `mask` columns of rule R83, in the order of rule R97. -/
def opcodeMap : List OpcodeLine :=
  [⟨1, 0x00E0, 0xFFFF⟩, ⟨2, 0x00EE, 0xFFFF⟩, ⟨3, 0x0000, 0xF000⟩, ⟨4, 0x1000, 0xF000⟩] ++
  [⟨5, 0x2000, 0xF000⟩, ⟨6, 0x3000, 0xF000⟩, ⟨7, 0x4000, 0xF000⟩, ⟨8, 0x5000, 0xF000⟩] ++
  [⟨9, 0x6000, 0xF000⟩, ⟨10, 0x7000, 0xF000⟩, ⟨11, 0x8000, 0xF00F⟩, ⟨12, 0x8001, 0xF00F⟩] ++
  [⟨13, 0x8002, 0xF00F⟩, ⟨14, 0x8003, 0xF00F⟩, ⟨15, 0x8004, 0xF00F⟩, ⟨16, 0x8005, 0xF00F⟩] ++
  [⟨17, 0x8006, 0xF00F⟩, ⟨18, 0x8007, 0xF00F⟩, ⟨19, 0x800E, 0xF00F⟩, ⟨20, 0x9000, 0xF000⟩] ++
  [⟨21, 0xA000, 0xF000⟩, ⟨22, 0xB000, 0xF000⟩, ⟨23, 0xC000, 0xF000⟩, ⟨24, 0xD000, 0xF000⟩] ++
  [⟨25, 0xE09E, 0xF0FF⟩, ⟨26, 0xE0A1, 0xF0FF⟩, ⟨27, 0xF007, 0xF0FF⟩, ⟨28, 0xF00A, 0xF0FF⟩] ++
  [⟨29, 0xF015, 0xF0FF⟩, ⟨30, 0xF018, 0xF0FF⟩, ⟨31, 0xF01E, 0xF0FF⟩, ⟨32, 0xF029, 0xF0FF⟩] ++
  [⟨33, 0xF033, 0xF0FF⟩, ⟨34, 0xF055, 0xF0FF⟩, ⟨35, 0xF065, 0xF0FF⟩, ⟨36, 0x0000, 0x0000⟩]

/-- The first row, in the order of rule R97, that the word matches. -/
def firstRow (w : Word) : Option Nat :=
  (opcodeMap.find? fun l => w &&& l.mask == l.pattern).map (·.row)

/-- The number of the row an instruction belongs to (rule R83). -/
def Instr.row : Instr → Nat
  | .clearDisplay => 1
  | .ret => 2
  | .sys _ => 3
  | .jump _ => 4
  | .call _ => 5
  | .skipEqualK _ _ => 6
  | .skipNotEqualK _ _ => 7
  | .skipEqual _ _ => 8
  | .storeK _ _ => 9
  | .addK _ _ => 10
  | .store _ _ => 11
  | .or _ _ => 12
  | .and _ _ => 13
  | .xor _ _ => 14
  | .add _ _ => 15
  | .sub _ _ => 16
  | .shiftRight _ _ => 17
  | .subReversed _ _ => 18
  | .shiftLeft _ _ => 19
  | .skipNotEqual _ _ => 20
  | .storeI _ => 21
  | .jumpOffset _ => 22
  | .random _ _ => 23
  | .draw _ _ _ => 24
  | .skipKeyPressed _ => 25
  | .skipKeyNotPressed _ => 26
  | .readDelayTimer _ => 27
  | .waitForKeypressAndStore _ => 28
  | .setDelayTimer _ => 29
  | .setSoundTimer _ => 30
  | .addI _ => 31
  | .glyphAddress _ => 32
  | .storeBCD _ => 33
  | .storeRegisters _ => 34
  | .loadRegisters _ => 35
  | .invalid _ => 36

/-! ### The host's view of one instruction word -/

/-- The bytes of one opcode as the hardware stores them, high byte first (rule R62). -/
def bytesOfWord (w : Word) : List Byte := [w.extractLsb' 8 8, w.extractLsb' 0 8]

/-- The low `nbits` bits of `w` as a 16-bit opcode; the bits above are 0. -/
def opcodeOfBits (nbits w : Nat) : Word := BitVec.ofNat 16 (w % 2 ^ nbits)

/-- The instruction the decoder reads from the opcode whose low `nbits` bits are those of `w`; no instruction is longer than
16 bits (rule R80). -/
def decodeTableWord (nbits w : Nat) : Option Instr :=
  if nbits ≤ 16 then
    match decodeBytes (bytesOfWord (opcodeOfBits nbits w)) with
    | .ok (i, _) => some i
    | .error _ => none
  else none

end Sys2Proof
end

