-- ==== Sys2Proof/Config.lean ====
section
/-! DEFINITION. What is fixed of one core: the parameters of rule R6, the glyph table of rule R157, and the values the spec
leaves OPEN or free, which are opaque constants. -/

namespace Sys2Proof

/-- INVALID_POLICY (rules R6, R120): what executing `Invalid` or `Sys` does. -/
inductive InvalidPolicy where
  | fatal
  | noop
deriving DecidableEq, Repr, Inhabited

/-- SHIFT_SOURCE (rules R6, R145): the register the two shifts read. -/
inductive ShiftSource where
  | vy
  | vx
deriving DecidableEq, Repr, Inhabited

/-- DRAW_VERTICAL (rules R6, R162): what becomes of sprite rows below the bottom edge. -/
inductive DrawVertical where
  | wrap
  | clip
deriving DecidableEq, Repr, Inhabited

/-- The parameters of rule R6 on which cores differ. They are fixed for a run (rules R30, R32). -/
structure Params where
  invalidPolicy : InvalidPolicy
  shiftSource   : ShiftSource
  drawVertical  : DrawVertical
deriving DecidableEq, Repr

namespace Config

/-- MEM_SIZE (rules R6, R60). -/
def memSize : Nat := 4096

/-- PROGRAM_BASE (rules R6, R41). -/
def programBase : Nat := 0x200

/-- STACK_DEPTH (rules R6, R24). -/
def stackDepth : Nat := 16

/-- FONT_BASE (rules R6, R153). -/
def fontBase : Nat := 0x000

/-- The longest program image a reset accepts, MEM_SIZE - PROGRAM_BASE = 3584 bytes (rule R212). -/
def maxImage : Nat := memSize - programBase

/-- INVALID_POLICY of this core, OPEN in rule R6: an opaque constant, so nothing can be proved from its value (log entry 1). -/
opaque invalidPolicy : InvalidPolicy

/-- SHIFT_SOURCE of this core, OPEN in rule R6: an opaque constant, so nothing can be proved from its value (log entry 2). -/
opaque shiftSource : ShiftSource

/-- The parameters of this core: the two OPEN ones are opaque, DRAW_VERTICAL is `wrap` as rule R6 says (log entry 3). -/
def params : Params := ⟨invalidPolicy, shiftSource, .wrap⟩

/-- The byte the random source answers the `k`-th free draw with (rules R142, R201): a free value, opaque (log entry 4). -/
opaque randomByte : Nat → Byte

/-- The glyph table of rule R157: sixteen sprites of five rows, digit 0 first. -/
def glyphTable : List Byte :=
  [0xF0, 0x90, 0x90, 0x90, 0xF0] ++  -- 0
  [0x20, 0x60, 0x20, 0x20, 0x70] ++  -- 1
  [0xF0, 0x10, 0xF0, 0x80, 0xF0] ++  -- 2
  [0xF0, 0x10, 0xF0, 0x10, 0xF0] ++  -- 3
  [0x90, 0x90, 0xF0, 0x10, 0x10] ++  -- 4
  [0xF0, 0x80, 0xF0, 0x10, 0xF0] ++  -- 5
  [0xF0, 0x80, 0xF0, 0x90, 0xF0] ++  -- 6
  [0xF0, 0x10, 0x20, 0x40, 0x40] ++  -- 7
  [0xF0, 0x90, 0xF0, 0x90, 0xF0] ++  -- 8
  [0xF0, 0x90, 0xF0, 0x10, 0xF0] ++  -- 9
  [0xF0, 0x90, 0xF0, 0x90, 0x90] ++  -- A
  [0xE0, 0x90, 0xE0, 0x90, 0xE0] ++  -- B
  [0xF0, 0x80, 0x80, 0x80, 0xF0] ++  -- C
  [0xE0, 0x90, 0x90, 0x90, 0xE0] ++  -- D
  [0xF0, 0x80, 0xF0, 0x80, 0xF0] ++  -- E
  [0xF0, 0x80, 0xF0, 0x80, 0x80]     -- F

end Config

end Sys2Proof
end

