-- ==== Sys2Proof/Machine/State.lean ====
section
/-! DEFINITION. The state of the Chip8 CORE (10_state.md), its reset value (rule R41), and the reasons a step can stop. -/

namespace Sys2Proof.Machine

/-- The four causes of a fatal condition (rules R180, R181). -/
inductive Cause where
  | stackOverflow
  | stackUnderflow
  | memoryOutOfBounds
  | invalidOpcode
deriving DecidableEq, Repr

/-- The access kinds a MemoryOutOfBounds records (rule R181). -/
inductive AccessKind where
  | fetch
  | dataRead
  | dataWrite
  | spriteRead
deriving DecidableEq, Repr

/-- `fault_info` of a MemoryOutOfBounds: the access kind and the lowest offending address, a natural number (rules R75, R181). -/
structure FaultInfo where
  kind    : AccessKind
  address : Nat
deriving DecidableEq, Repr

/-- The diagnostic of a fatal condition: the four fields of a FAULTED status (rules R33, R182). -/
structure Diagnostic where
  cause       : Cause
  faultPc     : Word
  faultOpcode : Option Word
  faultInfo   : Option FaultInfo
deriving DecidableEq, Repr

/-- The core's status (rule R33). -/
inductive Status where
  /-- RUNNING: the engine fetches and executes -/
  | running
  /-- WAIT_KEY: a WaitForKeypressAndStore awaits a key-press event for register `reg` -/
  | waitKey (reg : RegIdx)
  /-- FAULTED: a fatal condition was raised -/
  | faulted (d : Diagnostic)
deriving DecidableEq, Repr

/-- One step of one of the three agents (rules R34, R36, R38, R196). -/
inductive AgentStep where
  /-- a step of the Execution Engine (rule R36) -/
  | engine
  /-- a step of the Timer Clock (rule R196) -/
  | tick
  | keyDown (k : Nibble)
  | keyUp (k : Nibble)
  | reset (image : List Byte)
  | sampleFramebuffer
  | sampleSound
  | readStatus
deriving DecidableEq, Repr

/-- What rule R32 calls parameters of the step relation, not fields of the machine: the parameters of rule R6, the random byte
source and the schedule of the agents. It is the model's own field (log entries 1 to 5): exec and step take a state and
nothing else, so the parameters travel in it. -/
structure Environment where
  /-- the parameters of rule R6; no step of any agent changes them (rule R30) -/
  params   : Params
  /-- bytes injected into the random source and not drawn yet, first one next (rule R201) -/
  injected : List Byte
  /-- how many free draws were made: the argument of the next one (rule R142) -/
  draws    : Nat
  /-- the agent steps still to come, first one next; when there is none the engine moves (rule R35) -/
  agenda   : List AgentStep
deriving DecidableEq, Repr

/-- The framebuffer: 32 rows of 64 bits, `fb[r][c]` (rule R27). -/
abbrev Framebuffer := Vector (Vector Bool 64) 32

/-- Memory: the bytes that differ from what an unlisted address reads as, at strictly rising addresses (rule R29). -/
abbrev Memory := List Host.Cell

/-- The state of the machine (rules R20 to R33); `env` is the model's own. -/
structure State where
  /-- V0 to VF (rule R20); VF is the flag register (rule R21) -/
  v      : Vector Byte 16
  /-- the program counter (rule R22) -/
  pc     : Word
  /-- the index register I (rule R23) -/
  i      : Word
  /-- the call stack (rule R24) -/
  stack  : Vector Word 16
  /-- SP, the number of return addresses held, 0 to 16 (rule R24) -/
  sp     : Fin 17
  /-- the delay timer (rule R25) -/
  dt     : Byte
  /-- the sound timer (rule R26) -/
  st     : Byte
  /-- the framebuffer (rule R27) -/
  fb     : Framebuffer
  /-- the key state (rule R28) -/
  keys   : Vector Bool 16
  /-- memory (rule R29) -/
  mem    : Memory
  /-- the status (rule R33) -/
  status : Status
  /-- the parameters of the step relation (rule R32) -/
  env    : Environment
deriving DecidableEq, Repr

/-- The machine right after a reset with the empty image (rule R41): memory lists nothing, and an unlisted address reads as the
reset content (rules R67, R157). -/
def State.reset : State where
  v      := Vector.replicate 16 0
  pc     := BitVec.ofNat 16 Config.programBase
  i      := 0
  stack  := Vector.replicate 16 0
  sp     := 0
  dt     := 0
  st     := 0
  fb     := Vector.replicate 32 (Vector.replicate 64 false)
  keys   := Vector.replicate 16 false
  mem    := []
  status := .running
  env    := { params := Config.params, injected := [], draws := 0, agenda := [] }

/-- Why the machine stops with a fault. -/
inductive Fault where
  /-- Raised by `runEngine`: the engine is asked for a step in a FAULTED state and no agent step is to come; `d` is the
  diagnostic the status surfaces (rules R33, R182, R184). Safe: in that state the engine has no step at all. -/
  | stopped (d : Diagnostic)
deriving DecidableEq, Repr

/-- Why a step is refused. -/
inductive Refusal where
  /-- Raised by `exec`'s refused arms only: the instruction has no meaning in the model yet. Safe: nothing is claimed of it. -/
  | notModelled (mnemonic : String)
  /-- Raised by `runAgent`: a reset with an image longer than 3584 bytes, which rule R212 says to refuse. Safe: the core's
  behaviour for it is not defined by any source. -/
  | imageTooLong (length : Nat)
deriving DecidableEq, Repr

end Sys2Proof.Machine
end

