-- ==== Sys2Proof/Machine/Ops.lean ====
section
/-! DEFINITION. The named operations over memory, registers, the stack, the status and the random source, and raising a fatal
condition (rules R180 to R184). There is no return from a fatal condition: rule R185. -/

namespace Sys2Proof.Machine

/-! ### Memory (20_memory.md) -/

/-- What an address that memory does not list reads as: its reset content, the glyph table at FONT_BASE and 0 elsewhere
(rules R41, R67, R157). -/
def Memory.unlisted (a : Nat) : Byte :=
  if Config.fontBase ≤ a then Config.glyphTable.getD (a - Config.fontBase) 0 else 0

/-- The byte at address `a` (rule R66: reading changes nothing). -/
def Memory.read : Memory → Nat → Byte
  | [], a => unlisted a
  | (k, b) :: m, a => if a < k then unlisted a else if a = k then b else Memory.read m a

/-- Put byte `b` at address `a`, keeping the canonical form. -/
def Memory.put : Memory → Nat → Byte → Memory
  | [], a, b => if b = unlisted a then [] else [(a, b)]
  | (k, c) :: m, a, b =>
    if a < k then (if b = unlisted a then (k, c) :: m else (a, b) :: (k, c) :: m)
    else if a = k then (if b = unlisted a then m else (a, b) :: m)
    else (k, c) :: Memory.put m a b

/-- Store byte `b` at address `a` (rule R66: only that byte). An address at or beyond MEM_SIZE does not exist and is never
stored to: `State.ifInside` raises first (rule R61). -/
def Memory.write (m : Memory) (a : Nat) (b : Byte) : Memory :=
  if a < Config.memSize then m.put a b else m

/-- The canonical form from address `low` on: addresses rise strictly, exist, and list no byte equal to the unlisted one. -/
def Memory.wfFrom : Nat → Memory → Bool
  | _, [] => true
  | low, (a, b) :: m => decide (low ≤ a) && decide (a < Config.memSize) && b != unlisted a && Memory.wfFrom (a + 1) m

/-- The canonical form of a memory. -/
def Memory.wf (m : Memory) : Bool := m.wfFrom 0

/-- The `n` bytes from address `a` on, ascending (rules R63, R65). -/
def Memory.readBytes (m : Memory) : Nat → Nat → List Byte
  | _, 0 => []
  | a, n + 1 => m.read a :: Memory.readBytes m (a + 1) n

/-- Store the bytes from address `a` on, ascending (rules R63, R65). -/
def Memory.writeBytes (m : Memory) : Nat → List Byte → Memory
  | _, [] => m
  | a, b :: bs => Memory.writeBytes (m.write a b) (a + 1) bs

/-- The lowest of the `n` addresses from `a` on that lies at or beyond MEM_SIZE, if one does (rules R61, R75, R186). -/
def firstOutside : Nat → Nat → Option Nat
  | _, 0 => none
  | a, n + 1 => if Config.memSize ≤ a then some a else firstOutside (a + 1) n

/-! ### Registers (10_state.md) -/

/-- The index of VF (rule R21). -/
def vf : RegIdx := 0xF

/-- `V[x]` (rule R20). -/
def State.getV (s : State) (x : RegIdx) : Byte := s.v[x.toNat]'(x.isLt)

/-- `V[x] <- b` (rule R20). -/
def State.setV (s : State) (x : RegIdx) (b : Byte) : State := { s with v := s.v.set x.toNat b (x.isLt) }

/-- `PC <- a` (rule R22). -/
def State.setPc (s : State) (a : Word) : State := { s with pc := a }

/-- `I <- a` (rule R23). -/
def State.setI (s : State) (a : Word) : State := { s with i := a }

/-- `DT <- b` (rule R25). -/
def State.setDt (s : State) (b : Byte) : State := { s with dt := b }

/-- `ST <- b` (rule R26). -/
def State.setSt (s : State) (b : Byte) : State := { s with st := b }

/-- The framebuffer replaced (rule R27). -/
def State.setFb (s : State) (fb : Framebuffer) : State := { s with fb := fb }

/-- Memory replaced (rule R29). -/
def State.setMem (s : State) (m : Memory) : State := { s with mem := m }

/-- The status replaced (rule R33). -/
def State.setStatus (s : State) (st : Status) : State := { s with status := st }

/-- `key[k]` (rule R28). -/
def State.getKey (s : State) (k : Nibble) : Bool := s.keys[k.toNat]'(k.isLt)

/-- `key[k] <- b`: the host's alone (rules R28, R38). -/
def State.setKey (s : State) (k : Nibble) (b : Bool) : State := { s with keys := s.keys.set k.toNat b (k.isLt) }

/-- The schedule replaced (rule R35). -/
def State.setAgenda (s : State) (l : List AgentStep) : State := { s with env := { s.env with agenda := l } }

/-- `next`, PC + 2 mod 2^16 (rules R9, R22). -/
def State.next (s : State) : Word := s.pc + 2

/-- `skip`, PC + 4 mod 2^16 (rules R9, R22). -/
def State.skip (s : State) : Word := s.pc + 4

/-- `PC <- next`. -/
def State.advance (s : State) : State := s.setPc s.next

/-- The skip family: `PC <- skip` if the condition holds, else `PC <- next` (rule R37). -/
def State.skipIf (s : State) (c : Bool) : State := s.setPc (if c then s.skip else s.next)

/-! ### The call stack (rule R24) -/

/-- Push a return address; no state when all 16 entries are live. -/
def State.push (s : State) (a : Word) : Option State :=
  if h : s.sp.val < 16 then
    some { s with stack := s.stack.set s.sp.val a h, sp := ⟨s.sp.val + 1, by omega⟩ }
  else none

/-- Pop the most recent return address; nothing when no entry is live. -/
def State.pop (s : State) : Option (Word × State) :=
  if h : 0 < s.sp.val then
    some (s.stack[s.sp.val - 1]'(by have := s.sp.isLt; omega), { s with sp := ⟨s.sp.val - 1, by have := s.sp.isLt; omega⟩ })
  else none

/-! ### The random byte source (rules R142, R201) -/

/-- One draw: the next injected byte, or a free value when none is left. -/
def State.drawByte (s : State) : Byte × State :=
  match s.env.injected with
  | r :: rest => (r, { s with env := { s.env with injected := rest } })
  | [] => (Config.randomByte s.env.draws, { s with env := { s.env with draws := s.env.draws + 1 } })

/-! ### Fatal conditions (60_exceptions.md) -/

/-- Raise a fatal condition (rule R184): the status becomes FAULTED with its diagnostic, and nothing else changes. -/
def State.raise (s : State) (cause : Cause) (opcode : Option Word) (info : Option FaultInfo) : State :=
  s.setStatus (.faulted { cause := cause, faultPc := s.pc, faultOpcode := opcode, faultInfo := info })

/-- The bounds check of rule R61: `ok` if the `n` addresses from `base` on all lie inside memory, else MemoryOutOfBounds at the
lowest that does not. All `n` are checked before anything is written (rule R183). -/
def State.ifInside (s : State) (kind : AccessKind) (opcode : Option Word) (base n : Nat) (ok : State) : State :=
  match firstOutside base n with
  | none => ok
  | some a => s.raise .memoryOutOfBounds opcode (some { kind := kind, address := a })

/-- The cause code of rule R181. -/
def Cause.code : Cause → Nat
  | .stackOverflow => 1
  | .stackUnderflow => 2
  | .memoryOutOfBounds => 3
  | .invalidOpcode => 4

end Sys2Proof.Machine
end

