-- ==== Sys2Proof/Machine/Operands.lean ====
section
/-! DEFINITION. The operand forms of the instructions: how a field and the state give a value, an index or an address. -/

namespace Sys2Proof.Machine

/-- An Address operand used as a 16-bit value, zero-extended (rule R85). -/
def zext16 (nnn : Address) : Word := nnn.setWidth 16

/-- The low nibble of a byte: a key index (rule R170) or a hexadecimal digit (rule R153). -/
def lowNibble (b : Byte) : Nibble := b.extractLsb' 0 4

/-- The shift source of rule R145. -/
def State.shiftOperand (s : State) (x y : RegIdx) : Byte :=
  match s.env.params.shiftSource with
  | .vy => s.getV y
  | .vx => s.getV x

/-- The level of the key an instruction names through `V[x]` (rules R163, R170). -/
def State.keyNamedBy (s : State) (x : RegIdx) : Bool := s.getKey (lowNibble (s.getV x))

/-- The address of the glyph of the low nibble of `b` (rule R153). -/
def glyphOf (b : Byte) : Word := BitVec.ofNat 16 (Config.fontBase + 5 * (lowNibble b).toNat)

/-- The effective address `I`, a natural number; displacements are added to it without reduction (rules R75, R150). -/
def State.indexAddress (s : State) : Nat := s.i.toNat

/-- The three decimal digits of a byte: hundreds, tens, ones (rule R154). -/
def bcdDigits (b : Byte) : List Byte :=
  [BitVec.ofNat 8 (b.toNat / 100), BitVec.ofNat 8 (b.toNat / 10 % 10), BitVec.ofNat 8 (b.toNat % 10)]

/-- How many registers a block transfer with last register `x` moves (rules R85, R155). -/
def blockCount (x : RegIdx) : Nat := x.toNat + 1

/-- `V[0]` to `V[x]` in ascending order (rule R155). -/
def State.registerBlock (s : State) (x : RegIdx) : List Byte := s.v.toList.take (blockCount x)

/-- The registers with `V[0]` to `V[x]` replaced by the bytes of memory from `I` on (rule R156). -/
def State.loadedRegisters (s : State) (x : RegIdx) : Vector Byte 16 :=
  Vector.ofFn fun j : Fin 16 => if j.val ≤ x.toNat then s.mem.read (s.indexAddress + j.val) else s.v[j]

/-- `I` advanced past a block transfer, mod 2^16 (rules R155, R156). -/
def State.indexAfterBlock (s : State) (x : RegIdx) : Word := s.i + BitVec.ofNat 16 (blockCount x)

/-- The column a sprite starts at, `V[x] mod 64` (rule R162). -/
def State.spriteColumn (s : State) (x : RegIdx) : Nat := (s.getV x).toNat % 64

/-- The row a sprite starts at, `V[y] mod 32` (rule R162). -/
def State.spriteRow (s : State) (y : RegIdx) : Nat := (s.getV y).toNat % 32

end Sys2Proof.Machine
end

