-- ==== Sys2Proof/Machine/Flags.lean ====
section
/-! DEFINITION. The flag computations: every value an instruction writes to VF as a flag is 0 or 1 (rules R21, R144). -/

namespace Sys2Proof.Machine

/-- A flag value: 1 if the condition holds, else 0 (rule R21). -/
def flagByte (c : Bool) : Byte := if c then 1 else 0

/-- The carry of `Add`: the exact sum exceeds 255 (rule R137). -/
def carryFlag (a b : Byte) : Byte := flagByte (decide (a.toNat + b.toNat > 255))

/-- The not-borrow flag of `a - b`: `a ≥ b` (rules R138, R140). -/
def noBorrowFlag (a b : Byte) : Byte := flagByte (decide (a.toNat ≥ b.toNat))

/-- The bit `ShiftRight` shifts out, `s[0]` (rule R139). -/
def shiftedOutRight (s : Byte) : Byte := flagByte (s.getLsbD 0)

/-- The bit `ShiftLeft` shifts out, `s[7]` (rule R141). -/
def shiftedOutLeft (s : Byte) : Byte := flagByte (s.getLsbD 7)

/-- The end of a flag-setting operation: the result to `V[x]` first, the flag to VF second, then `PC <- next` (rules R130, R143). -/
def State.resultThenFlag (s : State) (x : RegIdx) (result flag : Byte) : State :=
  ((s.setV x result).setV vf flag).advance

end Sys2Proof.Machine
end

