-- ==== Sys2Proof/Machine/Alu.lean ====
section
/-! DEFINITION. Register loads, the ALU operations and Random (41_alu.md). -/

namespace Sys2Proof.Machine

/-- The end of an operation that sets no flag: the result to `V[x]`, then `PC <- next` (rule R130). -/
def State.result (s : State) (x : RegIdx) (b : Byte) : State := (s.setV x b).advance

/-- `StoreK Vx, kk` (rule R131). -/
def execStoreK (x : RegIdx) (kk : Byte) (s : State) : Host.Outcome State Fault Refusal :=
  .next (s.result x kk)

/-- `AddK Vx, kk` (rule R132): no flag. -/
def execAddK (x : RegIdx) (kk : Byte) (s : State) : Host.Outcome State Fault Refusal :=
  .next (s.result x (s.getV x + kk))

/-- `Store Vx, Vy` (rule R133). -/
def execStore (x y : RegIdx) (s : State) : Host.Outcome State Fault Refusal :=
  .next (s.result x (s.getV y))

/-- `Or Vx, Vy` (rule R134): no flag. -/
def execOr (x y : RegIdx) (s : State) : Host.Outcome State Fault Refusal :=
  .next (s.result x (s.getV x ||| s.getV y))

/-- `And Vx, Vy` (rule R135): no flag. -/
def execAnd (x y : RegIdx) (s : State) : Host.Outcome State Fault Refusal :=
  .next (s.result x (s.getV x &&& s.getV y))

/-- `Xor Vx, Vy` (rule R136): no flag. -/
def execXor (x y : RegIdx) (s : State) : Host.Outcome State Fault Refusal :=
  .next (s.result x (s.getV x ^^^ s.getV y))

/-- `Add Vx, Vy` (rules R137, R143). -/
def execAdd (x y : RegIdx) (s : State) : Host.Outcome State Fault Refusal :=
  .next (s.resultThenFlag x (s.getV x + s.getV y) (carryFlag (s.getV x) (s.getV y)))

/-- `Sub Vx, Vy` (rules R138, R143). -/
def execSub (x y : RegIdx) (s : State) : Host.Outcome State Fault Refusal :=
  .next (s.resultThenFlag x (s.getV x - s.getV y) (noBorrowFlag (s.getV x) (s.getV y)))

/-- `ShiftRight Vx, Vy` (rules R139, R143, R145). -/
def execShiftRight (x y : RegIdx) (s : State) : Host.Outcome State Fault Refusal :=
  .next (s.resultThenFlag x (s.shiftOperand x y >>> 1) (shiftedOutRight (s.shiftOperand x y)))

/-- `SubReversed Vx, Vy` (rules R140, R143). -/
def execSubReversed (x y : RegIdx) (s : State) : Host.Outcome State Fault Refusal :=
  .next (s.resultThenFlag x (s.getV y - s.getV x) (noBorrowFlag (s.getV y) (s.getV x)))

/-- `ShiftLeft Vx, Vy` (rules R141, R143, R145). -/
def execShiftLeft (x y : RegIdx) (s : State) : Host.Outcome State Fault Refusal :=
  .next (s.resultThenFlag x (s.shiftOperand x y <<< 1) (shiftedOutLeft (s.shiftOperand x y)))

/-- `Random Vx, kk` (rule R142): exactly one draw. -/
def execRandom (x : RegIdx) (kk : Byte) (s : State) : Host.Outcome State Fault Refusal :=
  .next (s.drawByte.2.result x (s.drawByte.1 &&& kk))

end Sys2Proof.Machine
end

