-- ==== Sys2Proof/Machine/Control.lean ====
section
/-! DEFINITION. Control transfer, the skips on registers, Sys and Invalid (40_control_flow.md). -/

namespace Sys2Proof.Machine

/-- What executing `Invalid` and `Sys` does under INVALID_POLICY, with `w` the word (rules R111, R120). -/
def State.invalidOpcode (s : State) (w : Word) : State :=
  match s.env.params.invalidPolicy with
  | .fatal => s.raise .invalidOpcode (some w) none
  | .noop => s.advance

/-- `Return` (rule R112). -/
def execReturn (s : State) : Host.Outcome State Fault Refusal :=
  .next (match s.pop with
    | some (a, t) => t.setPc a
    | none => s.raise .stackUnderflow (some (encode .ret)) none)

/-- `Sys nnn` (rules R86, R111): exactly as `Invalid`. -/
def execSys (nnn : Address) (s : State) : Host.Outcome State Fault Refusal :=
  .next (s.invalidOpcode (encode (.sys nnn)))

/-- `Jump nnn` (rule R113). -/
def execJump (nnn : Address) (s : State) : Host.Outcome State Fault Refusal :=
  .next (s.setPc (zext16 nnn))

/-- `Call nnn` (rule R114). -/
def execCall (nnn : Address) (s : State) : Host.Outcome State Fault Refusal :=
  .next (match s.push s.next with
    | some t => t.setPc (zext16 nnn)
    | none => s.raise .stackOverflow (some (encode (.call nnn))) none)

/-- `SkipEqualK Vx, kk` (rule R115). -/
def execSkipEqualK (x : RegIdx) (kk : Byte) (s : State) : Host.Outcome State Fault Refusal :=
  .next (s.skipIf (s.getV x == kk))

/-- `SkipNotEqualK Vx, kk` (rule R116). -/
def execSkipNotEqualK (x : RegIdx) (kk : Byte) (s : State) : Host.Outcome State Fault Refusal :=
  .next (s.skipIf (s.getV x != kk))

/-- `SkipEqual Vx, Vy` (rule R117). -/
def execSkipEqual (x y : RegIdx) (s : State) : Host.Outcome State Fault Refusal :=
  .next (s.skipIf (s.getV x == s.getV y))

/-- `SkipNotEqual Vx, Vy` (rule R118). -/
def execSkipNotEqual (x y : RegIdx) (s : State) : Host.Outcome State Fault Refusal :=
  .next (s.skipIf (s.getV x != s.getV y))

/-- `JumpOffset nnn` (rule R119): the sum with `V[0]` is reduced mod 2^16 only. -/
def execJumpOffset (nnn : Address) (s : State) : Host.Outcome State Fault Refusal :=
  .next (s.setPc (zext16 nnn + (s.getV 0).setWidth 16))

/-- `Invalid` (rule R120). -/
def execInvalid (w : Word) (s : State) : Host.Outcome State Fault Refusal :=
  .next (s.invalidOpcode w)

end Sys2Proof.Machine
end

