-- ==== Sys2Proof/Machine/Display.lean ====
section
/-! DEFINITION. The display instructions (43_display_keys_timers.md section 1). -/

namespace Sys2Proof.Machine

/-- Drawing in progress: the framebuffer so far and whether a bit went from set to unset (rule R162). -/
structure Canvas where
  fb        : Framebuffer
  collision : Bool
deriving DecidableEq, Repr

/-- Toggle the bit at row `yy` and column `xx`; a set bit that is toggled is a collision (rule R162). -/
def Canvas.toggle (c : Canvas) (yy : Fin 32) (xx : Fin 64) : Canvas where
  fb        := c.fb.set yy (c.fb[yy].set xx (!c.fb[yy][xx]))
  collision := c.collision || c.fb[yy][xx]

/-- Column `c` (0 leftmost) of a sprite row: bit `7 - c` of its byte (rule R161). -/
def spriteBit (row : Byte) (c : Nat) : Bool := row.getLsbD (7 - c)

/-- The framebuffer column of sprite column `c`, wrapping in the same row (rule R162). -/
def pixelColumn (x0 c : Nat) : Fin 64 := ⟨(x0 + c) % 64, by omega⟩

/-- The framebuffer row of sprite row `r`; none where DRAW_VERTICAL = clip does not draw it (rule R162). -/
def pixelRow (mode : DrawVertical) (y0 r : Nat) : Option (Fin 32) :=
  if h : y0 + r < 32 then some ⟨y0 + r, h⟩
  else match mode with
    | .wrap => some ⟨(y0 + r) % 32, by omega⟩
    | .clip => none

/-- XOR the sprite columns `cs` of one sprite row into framebuffer row `yy` (rule R162). -/
def Canvas.drawColumns (yy : Fin 32) (x0 : Nat) (row : Byte) : List Nat → Canvas → Canvas
  | [], cv => cv
  | c :: cs, cv => Canvas.drawColumns yy x0 row cs (if spriteBit row c then cv.toggle yy (pixelColumn x0 c) else cv)

/-- XOR one sprite row, all eight columns, or nothing where it is clipped (rule R162). -/
def Canvas.drawRow (mode : DrawVertical) (x0 y0 r : Nat) (row : Byte) (cv : Canvas) : Canvas :=
  match pixelRow mode y0 r with
  | some yy => cv.drawColumns yy x0 row [0, 1, 2, 3, 4, 5, 6, 7]
  | none => cv

/-- XOR the sprite rows, the first of which is row `r` of the sprite (rule R162). -/
def Canvas.drawRows (mode : DrawVertical) (x0 y0 : Nat) : Nat → List Byte → Canvas → Canvas
  | _, [], cv => cv
  | r, row :: rows, cv => Canvas.drawRows mode x0 y0 (r + 1) rows (cv.drawRow mode x0 y0 r row)

/-- The `n` sprite bytes at `I`, drawn at (`V[x] mod 64`, `V[y] mod 32`) (rule R162). -/
def State.drawn (s : State) (x y : RegIdx) (n : Nibble) : Canvas :=
  Canvas.drawRows s.env.params.drawVertical (s.spriteColumn x) (s.spriteRow y) 0
    (s.mem.readBytes s.indexAddress n.toNat) { fb := s.fb, collision := false }

/-- `ClearDisplay` (rule R160). -/
def execClearDisplay (s : State) : Host.Outcome State Fault Refusal :=
  .next (s.setFb (Vector.replicate 32 (Vector.replicate 64 false))).advance

/-- `Draw Vx, Vy, n` (rule R162): all `n` bytes are checked, VF is written last. -/
def execDraw (x y : RegIdx) (n : Nibble) (s : State) : Host.Outcome State Fault Refusal :=
  .next (s.ifInside .spriteRead (some (encode (.draw x y n))) s.indexAddress n.toNat
    ((s.setFb (s.drawn x y n).fb).setV vf (flagByte (s.drawn x y n).collision)).advance)

end Sys2Proof.Machine
end

