-- ==== Sys2Proof/Machine/Index.lean ====
section
/-! DEFINITION. The index register, loads and stores (42_index_memory.md). -/

namespace Sys2Proof.Machine

/-- `StoreI nnn` (rule R151). -/
def execStoreI (nnn : Address) (s : State) : Host.Outcome State Fault Refusal :=
  .next (s.setI (zext16 nnn)).advance

/-- `AddI Vx` (rule R152): mod 2^16, no flag. -/
def execAddI (x : RegIdx) (s : State) : Host.Outcome State Fault Refusal :=
  .next (s.setI (s.i + (s.getV x).setWidth 16)).advance

/-- `GlyphAddress Vx` (rule R153). -/
def execGlyphAddress (x : RegIdx) (s : State) : Host.Outcome State Fault Refusal :=
  .next (s.setI (glyphOf (s.getV x))).advance

/-- `StoreBCD Vx` (rule R154). -/
def execStoreBCD (x : RegIdx) (s : State) : Host.Outcome State Fault Refusal :=
  .next (s.ifInside .dataWrite (some (encode (.storeBCD x))) s.indexAddress 3
    (s.setMem (s.mem.writeBytes s.indexAddress (bcdDigits (s.getV x)))).advance)

/-- `StoreRegisters Vx` (rule R155). -/
def execStoreRegisters (x : RegIdx) (s : State) : Host.Outcome State Fault Refusal :=
  .next (s.ifInside .dataWrite (some (encode (.storeRegisters x))) s.indexAddress (blockCount x)
    ((s.setMem (s.mem.writeBytes s.indexAddress (s.registerBlock x))).setI (s.indexAfterBlock x)).advance)

/-- `LoadRegisters Vx` (rule R156). -/
def execLoadRegisters (x : RegIdx) (s : State) : Host.Outcome State Fault Refusal :=
  .next (s.ifInside .dataRead (some (encode (.loadRegisters x))) s.indexAddress (blockCount x)
    (({ s with v := s.loadedRegisters x } : State).setI (s.indexAfterBlock x)).advance)

end Sys2Proof.Machine
end

