-- ==== Sys2Proof/Machine/Keys.lean ====
section
/-! DEFINITION. The key instructions (43_display_keys_timers.md section 2). -/

namespace Sys2Proof.Machine

/-- `SkipKeyPressed Vx` (rules R163, R170). -/
def execSkipKeyPressed (x : RegIdx) (s : State) : Host.Outcome State Fault Refusal :=
  .next (s.skipIf (s.keyNamedBy x))

/-- `SkipKeyNotPressed Vx` (rules R164, R170). -/
def execSkipKeyNotPressed (x : RegIdx) (s : State) : Host.Outcome State Fault Refusal :=
  .next (s.skipIf (!s.keyNamedBy x))

/-- `WaitForKeypressAndStore Vx`, its first part: the core suspends, PC and registers stay (rule R166). The second part is
`State.keyDown`. -/
def execWaitForKeypressAndStore (x : RegIdx) (s : State) : Host.Outcome State Fault Refusal :=
  .next (s.setStatus (.waitKey x))

end Sys2Proof.Machine
end

