-- ==== Sys2Proof/Machine/Timers.lean ====
section
/-! DEFINITION. The timer instructions (43_display_keys_timers.md section 3). -/

namespace Sys2Proof.Machine

/-- `ReadDelayTimer Vx` (rule R165). -/
def execReadDelayTimer (x : RegIdx) (s : State) : Host.Outcome State Fault Refusal :=
  .next (s.result x s.dt)

/-- `SetDelayTimer Vx` (rule R168). -/
def execSetDelayTimer (x : RegIdx) (s : State) : Host.Outcome State Fault Refusal :=
  .next (s.setDt (s.getV x)).advance

/-- `SetSoundTimer Vx` (rule R169). -/
def execSetSoundTimer (x : RegIdx) (s : State) : Host.Outcome State Fault Refusal :=
  .next (s.setSt (s.getV x)).advance

end Sys2Proof.Machine
end

