-- ==== Sys2Proof/Machine/Agents.lean ====
section
/-! DEFINITION. The steps of the three agents: the Execution Engine (rule R36), the Timer Clock (rule R196) and the host
(rule R38). -/

namespace Sys2Proof.Machine

/-! ### The Execution Engine -/

/-- The opcode at PC: two bytes, high byte first, if both lie inside memory; else what a fetch fault records (rules R36, R61, R62). -/
def State.fetch (s : State) : Except FaultInfo Word :=
  match firstOutside s.pc.toNat 2 with
  | none => .ok (wordOfBytes (s.mem.read s.pc.toNat) (s.mem.read (s.pc.toNat + 1)))
  | some a => .error { kind := .fetch, address := a }

/-- The engine step of a RUNNING core: fetch, decode, execute (rules R36, R186). A fetch fault records no opcode (rule R182). -/
def engineStep (s : State) : Host.Outcome State Fault Refusal :=
  match s.fetch with
  | .error info => .next (s.raise .memoryOutOfBounds none (some info))
  | .ok w => exec (decode w) s

/-- The engine alone: in WAIT_KEY it has no step and the machine idles (log entry 6); in FAULTED it has stopped, and the
diagnostic surfaces (rules R33, R184; log entry 7). -/
def runEngine (s : State) : Host.Outcome State Fault Refusal :=
  match s.status with
  | .running => engineStep s
  | .waitKey _ => .next s
  | .faulted d => .fault (.stopped d)

/-! ### The Timer Clock -/

/-- `Tick` (rule R196): both timers in one step, never below 0, in every status. -/
def State.tick (s : State) : State :=
  { s with dt := if s.dt = 0 then 0 else s.dt - 1, st := if s.st = 0 then 0 else s.st - 1 }

/-! ### The host -/

/-- The second part of `WaitForKeypressAndStore`: a key-press event of key `k` completes a pending wait (rules R38, R166). -/
def State.completeWait (s : State) (k : Nibble) : State :=
  match s.status with
  | .waitKey x => ((s.setV x (k.setWidth 8)).advance).setStatus .running
  | .running => s
  | .faulted _ => s

/-- `KeyDown(k)` (rule R38): a key already held gives no event. -/
def State.keyDown (s : State) (k : Nibble) : State :=
  if s.getKey k then s else (s.setKey k true).completeWait k

/-- `KeyUp(k)` (rule R38). -/
def State.keyUp (s : State) (k : Nibble) : State := s.setKey k false

/-- `Reset(image)` (rules R41, R211): the reset state with the image at PROGRAM_BASE. The parameters, the random source and the
schedule are no part of the machine and stay (rules R32, R211). -/
def State.restart (s : State) (image : List Byte) : State :=
  { State.reset with mem := Memory.writeBytes [] Config.programBase image, env := s.env }

/-- `SampleFramebuffer` (rules R38, R198): what the host gets; the machine is unchanged. -/
def State.sampleFramebuffer (s : State) : Framebuffer := s.fb

/-- `SampleSound` (rules R38, R200). -/
def State.sampleSound (s : State) : Byte := s.st

/-- The tone is on exactly while ST is not 0 (rule R200). -/
def State.toneOn (s : State) : Bool := s.sampleSound != 0

/-- `ReadStatus` (rules R38, R182). -/
def State.readStatus (s : State) : Status := s.status

/-! ### One scheduled step -/

/-- One step of the agent the schedule names (rules R34, R35). The engine's turn passes where it has no step (rule R36). A reset
with an image longer than 3584 bytes is refused (rule R212). -/
def runAgent (a : AgentStep) (s : State) : Host.Outcome State Fault Refusal :=
  match a with
  | .engine =>
    match s.status with
    | .running => engineStep s
    | .waitKey _ => .next s
    | .faulted _ => .next s
  | .tick => .next s.tick
  | .keyDown k => .next (s.keyDown k)
  | .keyUp k => .next (s.keyUp k)
  | .reset image => if image.length ≤ Config.maxImage then .next (s.restart image) else .refused (.imageTooLong image.length)
  | .sampleFramebuffer => .next s
  | .sampleSound => .next s
  | .readStatus => .next s

/-- The next step of the machine: the first agent step on the schedule, or the engine when none is left (rule R35). The schedule is
a finite list, so a run of `step` follows an interleaving for a finite while only, and from then on the engine moves alone: the
model's choice (log entry 15). Rule R196 says that the Timer Clock ticks again eventually: the runs that do are the interleavings
that meet `TimerClockFair`, and `interleaving_run` says that `step` follows any of them for as long as its schedule lasts. -/
def nextStep (s : State) : Host.Outcome State Fault Refusal :=
  match s.env.agenda with
  | [] => runEngine s
  | a :: rest => runAgent a (s.setAgenda rest)

/-! ### The end of a run -/

/-- A program has ended when the core is RUNNING at a `Jump` to its own address: the definition rule R43 leaves to the model, taken
from the convention the rule describes (log entry 16). A FAULTED or waiting core has not ended. -/
def State.ended (s : State) : Bool :=
  match s.status with
  | .running =>
    match s.fetch with
    | .ok w => decide (decode w = .jump (s.pc.setWidth 12))
    | .error _ => false
  | .waitKey _ => false
  | .faulted _ => false

/-- An opcode placed at PC, high byte first (rule R62). -/
def State.placeOpcode (s : State) (w : Word) : State := s.setMem (s.mem.writeBytes s.pc.toNat (bytesOfWord w))

end Sys2Proof.Machine
end

