-- ==== Sys2Proof/Machine/Step.lean ====
section
/-! DEFINITION. One step of the machine, and placing an instruction where the next step fetches it. -/

namespace Sys2Proof.Machine

/-- One step of one agent (rules R34, R35, R36). -/
def step (s : State) : Host.Outcome State Fault Refusal := nextStep s

/-- `s` with the opcode of the low `nbits` bits of `w` at PC, and the engine RUNNING with nothing scheduled before it, so that
the next step fetches and runs that opcode (log entry 11). -/
def State.withFetchWord (s : State) (nbits w : Nat) : State :=
  ((s.placeOpcode (opcodeOfBits nbits w)).setStatus .running).setAgenda []

end Sys2Proof.Machine
end

