-- ==== Sys2Proof/Safety.lean ====
section
/-! DEFINITION. What counts as a safe run, the invariants of the machine, and the words the claims are stated in. -/

namespace Sys2Proof.Machine

/-! ### Words for claims about one step -/

/-- The number `n` is a 16-bit opcode that decodes to `i`. -/
def DecodesTo (n : Nat) (i : Instr) : Prop := n < 65536 ∧ decode (BitVec.ofNat 16 n) = i

/-- The byte memory holds at address `a`. -/
def State.byteAt (s : State) (a : Nat) : Byte := s.mem.read a

/-- The number of the opcode at address `a`: the byte at the lower address is the high one (rule R62). -/
def State.opcodeAt (s : State) (a : Nat) : Nat := 256 * (s.byteAt a).toNat + (s.byteAt (a + 1)).toNat

/-- PC moved on by `n`, mod 2^16. -/
def PcMoves (n : Nat) (s t : State) : Prop := t.pc.toNat = (s.pc.toNat + n) % 65536

/-- Every register but those of `ws` holds what it held. -/
def RegsKeptBut (ws : List RegIdx) (s t : State) : Prop := ∀ r : RegIdx, r ∉ ws → t.getV r = s.getV r

/-- Nothing but PC and the registers of `ws` changed. -/
def OnlyRegsAndPc (ws : List RegIdx) (s t : State) : Prop := t = { s with v := t.v, pc := t.pc } ∧ RegsKeptBut ws s t

/-- Nothing but PC changed. -/
def OnlyPc (s t : State) : Prop := t = { s with pc := t.pc }

/-- A flag's value: 1 if the condition holds, else 0. -/
def FlagIs (b : Byte) (c : Prop) : Prop := (c → b = 1) ∧ (¬c → b = 0)

/-- `a` is the lowest of the `n` addresses from `base` on that lies outside the 4096 bytes of memory (rules R61, R186). -/
def LowestOutside (base n a : Nat) : Prop :=
  base ≤ a ∧ a < base + n ∧ 4096 ≤ a ∧ ∀ b, base ≤ b → b < a → b < 4096

/-- A fatal condition was raised and did nothing else: the status is FAULTED with this diagnostic, PC is the offending
instruction's address, and every other part of the state is as it was (rules R183, R184). -/
def FatalEntry (s t : State) (cause : Cause) (opcode : Option Word) (info : Option FaultInfo) : Prop :=
  t = { s with status := .faulted { cause := cause, faultPc := s.pc, faultOpcode := opcode, faultInfo := info } }

/-! ### Every interleaving of the agents -/

/-- Some agent takes a step from `s` to `t`, whatever the schedule says. A sequence of such steps is an interleaving of rule R35,
finite or not, so a claim about every interleaving is a claim about every such sequence (log entry 15). -/
def SomeAgentMoves (s t : State) : Prop := ∃ a, runAgent a s = .next t

/-- An interleaving of the agents (rule R35): at step `n` the agent of `agent n` moves the machine from `σ n` to `σ (n + 1)`. -/
def Interleaving (agent : Nat → AgentStep) (σ : Nat → State) : Prop := ∀ n, runAgent (agent n) (σ n) = .next (σ (n + 1))

/-- The step `a` comes again and again: after every moment it comes once more. -/
def KeepsComing (a : AgentStep) (agent : Nat → AgentStep) : Prop := ∀ n, ∃ m, n ≤ m ∧ agent m = a

/-- The fairness of the Timer Clock: it ticks again eventually (rules R196, R35, R221). It is all the machine says of when ticks
come: a claim that a timer reaches 0 takes it as a premise. -/
def TimerClockFair (agent : Nat → AgentStep) : Prop := KeepsComing .tick agent

/-- A running core in `s` executes `i` with its next engine step: the opcode at PC lies inside memory and decodes to `i`
(rule R36). -/
def State.Executes (s : State) (i : Instr) : Prop :=
  s.status = .running ∧ s.pc.toNat + 1 < 4096 ∧ DecodesTo (s.opcodeAt s.pc.toNat) i

/-! ### Safe states and invariants -/

/-- A run is safe while no fatal condition was raised (rules R33, R184). -/
def State.live (s : State) : Bool :=
  match s.status with
  | .running => true
  | .waitKey _ => true
  | .faulted _ => false

/-- Memory is in its canonical form. -/
def State.MemInv (s : State) : Prop := s.mem.wf = true

/-- What a diagnostic that names an opcode `w` says of the machine it was raised in: the instruction `w` decodes to is one that
raises `d.cause`, and the condition of rule R180 holds (rules R180, R181). -/
def CauseHolds (s : State) (w : Word) (d : Diagnostic) : Prop :=
  match d.cause with
  | .stackOverflow => (∃ nnn, decode w = .call nnn) ∧ s.sp.val = 16 ∧ d.faultInfo = none
  | .stackUnderflow => decode w = .ret ∧ s.sp.val = 0 ∧ d.faultInfo = none
  | .invalidOpcode =>
    ((∃ nnn, decode w = .sys nnn) ∨ decode w = .invalid w) ∧ s.env.params.invalidPolicy = .fatal ∧ d.faultInfo = none
  | .memoryOutOfBounds =>
    ∃ a,
      ((∃ x y n, decode w = .draw x y n ∧ LowestOutside s.i.toNat n.toNat a ∧ d.faultInfo = some ⟨.spriteRead, a⟩) ∨
       (∃ x, decode w = .storeBCD x ∧ LowestOutside s.i.toNat 3 a ∧ d.faultInfo = some ⟨.dataWrite, a⟩) ∨
       (∃ x, decode w = .storeRegisters x ∧ LowestOutside s.i.toNat (x.toNat + 1) a ∧ d.faultInfo = some ⟨.dataWrite, a⟩) ∨
       (∃ x, decode w = .loadRegisters x ∧ LowestOutside s.i.toNat (x.toNat + 1) a ∧ d.faultInfo = some ⟨.dataRead, a⟩))

/-- The status tells the truth: while waiting, PC is at a WaitForKeypressAndStore for the register that will receive the key;
while FAULTED, `fault_pc` is PC, the recorded opcode is the one in memory there, and its cause holds (rules R33, R182). -/
def State.StatusInv (s : State) : Prop :=
  match s.status with
  | .running => True
  | .waitKey x => s.pc.toNat + 1 < 4096 ∧ DecodesTo (s.opcodeAt s.pc.toNat) (.waitForKeypressAndStore x)
  | .faulted d =>
    d.faultPc = s.pc ∧
    match d.faultOpcode with
    | none => d.cause = .memoryOutOfBounds ∧ ∃ a, LowestOutside s.pc.toNat 2 a ∧ d.faultInfo = some ⟨.fetch, a⟩
    | some w => s.pc.toNat + 1 < 4096 ∧ w.toNat = s.opcodeAt s.pc.toNat ∧ CauseHolds s w d

/-! ### Fatal conditions by instruction -/

/-- The exact condition of rule R180 under which instruction `i` raises `c`, once fetched. -/
def RaisesWhen (s : State) (i : Instr) (c : Cause) : Prop :=
  (c = .stackOverflow ∧ (∃ nnn, i = .call nnn) ∧ s.sp.val = 16) ∨
  (c = .stackUnderflow ∧ i = .ret ∧ s.sp.val = 0) ∨
  (c = .memoryOutOfBounds ∧
    ((∃ x y n, i = .draw x y n ∧ n.toNat > 0 ∧ s.i.toNat + n.toNat - 1 ≥ 4096) ∨
     (∃ x, i = .storeBCD x ∧ s.i.toNat + 2 ≥ 4096) ∨
     (∃ x, (i = .storeRegisters x ∨ i = .loadRegisters x) ∧ s.i.toNat + x.toNat ≥ 4096))) ∨
  (c = .invalidOpcode ∧ ((∃ nnn, i = .sys nnn) ∨ (∃ w, i = .invalid w)) ∧ s.env.params.invalidPolicy = .fatal)

end Sys2Proof.Machine

namespace Sys2Proof

/-! ### Flags, destinations and stores by instruction -/

/-- The instructions that write VF as a flag (rule R21). -/
def Instr.setsFlag : Instr → Bool
  | .add _ _ | .sub _ _ | .subReversed _ _ | .shiftRight _ _ | .shiftLeft _ _ | .draw _ _ _ => true
  | .clearDisplay | .ret | .sys _ | .jump _ | .call _ | .skipEqualK _ _ | .skipNotEqualK _ _ | .skipEqual _ _
  | .storeK _ _ | .addK _ _ | .store _ _ | .or _ _ | .and _ _ | .xor _ _ | .skipNotEqual _ _ | .storeI _ | .jumpOffset _
  | .random _ _ | .skipKeyPressed _ | .skipKeyNotPressed _ | .readDelayTimer _ | .waitForKeypressAndStore _
  | .setDelayTimer _ | .setSoundTimer _ | .addI _ | .glyphAddress _ | .storeBCD _ | .storeRegisters _ | .loadRegisters _
  | .invalid _ => false

/-- The registers an instruction names as its destination when it executes (rule R39); `WaitForKeypressAndStore` writes its
register only at completion. -/
def Instr.destinations : Instr → List RegIdx
  | .storeK x _ | .addK x _ | .store x _ | .or x _ | .and x _ | .xor x _ | .add x _ | .sub x _ | .subReversed x _
  | .shiftRight x _ | .shiftLeft x _ | .random x _ | .readDelayTimer x => [x]
  | .loadRegisters x => (List.range (x.toNat + 1)).map (BitVec.ofNat 4)
  | .clearDisplay | .ret | .sys _ | .jump _ | .call _ | .skipEqualK _ _ | .skipNotEqualK _ _ | .skipEqual _ _
  | .skipNotEqual _ _ | .storeI _ | .jumpOffset _ | .draw _ _ _ | .skipKeyPressed _ | .skipKeyNotPressed _
  | .waitForKeypressAndStore _ | .setDelayTimer _ | .setSoundTimer _ | .addI _ | .glyphAddress _ | .storeBCD _
  | .storeRegisters _ | .invalid _ => []

/-- The addresses an instruction stores to when it is not turned away by the bounds check (rules R60, R65): three from `I` for
StoreBCD, `x + 1` from `I` for StoreRegisters, none for any other. -/
def Instr.storedCount : Instr → Nat
  | .storeBCD _ => 3
  | .storeRegisters x => x.toNat + 1
  | .clearDisplay | .ret | .sys _ | .jump _ | .call _ | .skipEqualK _ _ | .skipNotEqualK _ _ | .skipEqual _ _
  | .storeK _ _ | .addK _ _ | .store _ _ | .or _ _ | .and _ _ | .xor _ _ | .add _ _ | .sub _ _ | .shiftRight _ _
  | .subReversed _ _ | .shiftLeft _ _ | .skipNotEqual _ _ | .storeI _ | .jumpOffset _ | .random _ _ | .draw _ _ _
  | .skipKeyPressed _ | .skipKeyNotPressed _ | .readDelayTimer _ | .waitForKeypressAndStore _ | .setDelayTimer _
  | .setSoundTimer _ | .addI _ | .glyphAddress _ | .loadRegisters _ | .invalid _ => 0

end Sys2Proof

namespace Sys2Proof.Machine

/-! ### The picture `Draw` makes, pixel by pixel (rule R162) -/

/-- Sprite row `r` of a sprite at row `y0` is drawn on framebuffer row `yy`. -/
def OnRow (mode : DrawVertical) (y0 r : Nat) (yy : Fin 32) : Prop :=
  match mode with
  | .wrap => yy.val = (y0 + r) % 32
  | .clip => yy.val = y0 + r

/-- Some set sprite bit of `Draw Vx, Vy, n` lands on the pixel at row `yy` and column `xx`. -/
def State.CoversPixel (s : State) (x y : RegIdx) (n : Nibble) (yy : Fin 32) (xx : Fin 64) : Prop :=
  ∃ r c : Nat, r < n.toNat ∧ c < 8 ∧
    OnRow s.env.params.drawVertical ((s.getV y).toNat % 32) r yy ∧
    xx.val = ((s.getV x).toNat % 64 + c) % 64 ∧
    (s.byteAt (s.i.toNat + r)).toNat / 2 ^ (7 - c) % 2 = 1

/-! ### What cannot be observed -/

/-- Two states that differ at most in call stack entries at or above SP (rule R24). -/
def SameButDeadEntries (s t : State) : Prop :=
  t = { s with stack := t.stack } ∧ ∀ j : Fin 16, j.val < s.sp.val → t.stack[j] = s.stack[j]

end Sys2Proof.Machine
end

