-- ==== Sys2Proof/Certificates/Slice0/Obligations.lean ====
section
/-! DEFINITION. The statements about the model, from the spec's numbered rules. A docstring names the rule a statement
formalises, and, where a clause rests on a choice of the spec (a D entry of 92_eei_decisions.md) or of the model (a log entry),
that choice. -/

open Sys2Proof Sys2Proof.Machine

/-! ### Encoding and decoding (30_encoding.md) -/

/-- R91: decoding the canonical encoding of any well-formed instruction gives it back, every operand at every value. -/
def Obligations.DecodeOfEncodeIsIdentity : Prop :=
  ∀ i : Instr, i.wellFormed = true → decode (encode i) = i

/-- R92, its second half: every word decodes to a well-formed instruction, and encoding that gives the word back, but for the
non-canonical aliases of families 5 and 9 (the spec's decision D33), where it clears the low nibble. -/
def Obligations.EncodeOfDecodeClearsAliasNibble : Prop :=
  ∀ w : Word, (decode w).wellFormed = true ∧
    (encode (decode w)).toNat = if w.toNat / 4096 = 5 ∨ w.toNat / 4096 = 9 then w.toNat / 16 * 16 else w.toNat

/-- R92, its first half: the canonical encoding is the row's `match` with the operand fields inserted. -/
def Obligations.EncodeIsMatchPlusFields : Prop :=
  ∀ (x y : RegIdx) (n : Nibble) (kk : Byte) (nnn : Address) (w : Word),
    (encode .clearDisplay).toNat = 0x00E0 ∧ (encode .ret).toNat = 0x00EE ∧
    (encode (.sys nnn)).toNat = 0x0000 + nnn.toNat ∧
    (encode (.jump nnn)).toNat = 0x1000 + nnn.toNat ∧
    (encode (.call nnn)).toNat = 0x2000 + nnn.toNat ∧
    (encode (.skipEqualK x kk)).toNat = 0x3000 + 256 * x.toNat + kk.toNat ∧
    (encode (.skipNotEqualK x kk)).toNat = 0x4000 + 256 * x.toNat + kk.toNat ∧
    (encode (.skipEqual x y)).toNat = 0x5000 + 256 * x.toNat + 16 * y.toNat ∧
    (encode (.storeK x kk)).toNat = 0x6000 + 256 * x.toNat + kk.toNat ∧
    (encode (.addK x kk)).toNat = 0x7000 + 256 * x.toNat + kk.toNat ∧
    (encode (.store x y)).toNat = 0x8000 + 256 * x.toNat + 16 * y.toNat ∧
    (encode (.or x y)).toNat = 0x8001 + 256 * x.toNat + 16 * y.toNat ∧
    (encode (.and x y)).toNat = 0x8002 + 256 * x.toNat + 16 * y.toNat ∧
    (encode (.xor x y)).toNat = 0x8003 + 256 * x.toNat + 16 * y.toNat ∧
    (encode (.add x y)).toNat = 0x8004 + 256 * x.toNat + 16 * y.toNat ∧
    (encode (.sub x y)).toNat = 0x8005 + 256 * x.toNat + 16 * y.toNat ∧
    (encode (.shiftRight x y)).toNat = 0x8006 + 256 * x.toNat + 16 * y.toNat ∧
    (encode (.subReversed x y)).toNat = 0x8007 + 256 * x.toNat + 16 * y.toNat ∧
    (encode (.shiftLeft x y)).toNat = 0x800E + 256 * x.toNat + 16 * y.toNat ∧
    (encode (.skipNotEqual x y)).toNat = 0x9000 + 256 * x.toNat + 16 * y.toNat ∧
    (encode (.storeI nnn)).toNat = 0xA000 + nnn.toNat ∧
    (encode (.jumpOffset nnn)).toNat = 0xB000 + nnn.toNat ∧
    (encode (.random x kk)).toNat = 0xC000 + 256 * x.toNat + kk.toNat ∧
    (encode (.draw x y n)).toNat = 0xD000 + 256 * x.toNat + 16 * y.toNat + n.toNat ∧
    (encode (.skipKeyPressed x)).toNat = 0xE09E + 256 * x.toNat ∧
    (encode (.skipKeyNotPressed x)).toNat = 0xE0A1 + 256 * x.toNat ∧
    (encode (.readDelayTimer x)).toNat = 0xF007 + 256 * x.toNat ∧
    (encode (.waitForKeypressAndStore x)).toNat = 0xF00A + 256 * x.toNat ∧
    (encode (.setDelayTimer x)).toNat = 0xF015 + 256 * x.toNat ∧
    (encode (.setSoundTimer x)).toNat = 0xF018 + 256 * x.toNat ∧
    (encode (.addI x)).toNat = 0xF01E + 256 * x.toNat ∧
    (encode (.glyphAddress x)).toNat = 0xF029 + 256 * x.toNat ∧
    (encode (.storeBCD x)).toNat = 0xF033 + 256 * x.toNat ∧
    (encode (.storeRegisters x)).toNat = 0xF055 + 256 * x.toNat ∧
    (encode (.loadRegisters x)).toNat = 0xF065 + 256 * x.toNat ∧
    encode (.invalid w) = w

/-- R90: exactly the words of the Invalid set decode to `Invalid`, each keeping its raw word: 1792 in family 8,
4064 in family E and 3952 in family F; 4094 words decode to `Sys`. -/
def Obligations.InvalidExactlyOnInvalidSet : Prop :=
  (∀ w : Word, decode w = .invalid w ↔
    (w.toNat / 4096 = 0x8 ∧ w.toNat % 16 ∈ [0x8, 0x9, 0xA, 0xB, 0xC, 0xD, 0xF]) ∨
    (w.toNat / 4096 = 0xE ∧ w.toNat % 256 ∉ [0x9E, 0xA1]) ∨
    (w.toNat / 4096 = 0xF ∧ w.toNat % 256 ∉ [0x07, 0x0A, 0x15, 0x18, 0x1E, 0x29, 0x33, 0x55, 0x65])) ∧
  (∀ w v : Word, decode w = .invalid v → v = w) ∧
  (List.range 4096).countP (fun m => (decode (BitVec.ofNat 16 (0x8000 + m))).row == 36) = 1792 ∧
  (List.range 4096).countP (fun m => (decode (BitVec.ofNat 16 (0xE000 + m))).row == 36) = 4064 ∧
  (List.range 4096).countP (fun m => (decode (BitVec.ofNat 16 (0xF000 + m))).row == 36) = 3952 ∧
  (List.range 4096).countP (fun m => (decode (BitVec.ofNat 16 m)).row == 3) = 4094

/-- R97: the hierarchical decoder picks the first row of the opcode map whose masked bits match; the only overlaps are rows 1 and 2
inside row 3, and row 36, which matches everything, and both do occur; so row 3 is picked by the words of family 0 but two, and
row 36 by exactly the set of R90. -/
def Obligations.DecoderAgreesWithPriorityTable : Prop :=
  (∀ w : Word, firstRow w = some (decode w).row) ∧
  (∀ w : Word, firstRow w = some 3 ↔ w.toNat / 4096 = 0 ∧ w.toNat ≠ 0x00E0 ∧ w.toNat ≠ 0x00EE) ∧
  (∀ w : Word, firstRow w = some 36 ↔ invalidWord w = true) ∧
  (∀ (w : Word) (l m : OpcodeLine), l ∈ opcodeMap → m ∈ opcodeMap → l.row = 1 ∨ l.row = 2 → m.row = 3 →
    w &&& l.mask = l.pattern → w &&& m.mask = m.pattern) ∧
  (∀ (w : Word) (m : OpcodeLine), m ∈ opcodeMap → m.row = 36 → w &&& m.mask = m.pattern) ∧
  (∀ (w : Word) (l m : OpcodeLine), l ∈ opcodeMap → m ∈ opcodeMap → l.row < m.row →
    w &&& l.mask = l.pattern → w &&& m.mask = m.pattern → m.row = 36 ∨ (m.row = 3 ∧ (l.row = 1 ∨ l.row = 2)))

/-- R81: the six fields are the parts of the word, and they overlap as the rule says: `kk = y || n`, `nnn = x || y || n`. -/
def Obligations.FieldsAreThePartsOfTheWord : Prop :=
  ∀ w : Word,
    w.toNat = 4096 * (fieldOp w).toNat + 256 * (fieldX w).toNat + 16 * (fieldY w).toNat + (fieldN w).toNat ∧
    (fieldKK w).toNat = 16 * (fieldY w).toNat + (fieldN w).toNat ∧
    (fieldNNN w).toNat = 256 * (fieldX w).toNat + 16 * (fieldY w).toNat + (fieldN w).toNat

/-- Words written out from the encodings of R83, one or more of each of the sixteen families, decode to what they stand for
(95_test_vectors.md part 1 and sections 2.1, 2.4, 2.6). -/
def Obligations.WrittenOutWordsDecode : Prop :=
  decode 0x00E0 = .clearDisplay ∧ decode 0x00EE = .ret ∧ decode 0x01E0 = .sys 0x1E0 ∧ decode 0x1FFF = .jump 0xFFF ∧
  decode 0x2ABC = .call 0xABC ∧ decode 0x3A7F = .skipEqualK 0xA 0x7F ∧ decode 0x4F00 = .skipNotEqualK 0xF 0x00 ∧
  decode 0x5AB7 = .skipEqual 0xA 0xB ∧ decode 0x6A02 = .storeK 0xA 0x02 ∧ decode 0x7EFF = .addK 0xE 0xFF ∧
  decode 0x8EF4 = .add 0xE 0xF ∧ decode 0x8ABE = .shiftLeft 0xA 0xB ∧
  decode 0x8ABF = .invalid 0x8ABF ∧ decode 0x9AB0 = .skipNotEqual 0xA 0xB ∧ decode 0xA123 = .storeI 0x123 ∧
  decode 0xB300 = .jumpOffset 0x300 ∧ decode 0xC30F = .random 0x3 0x0F ∧
  decode 0xD125 = .draw 0x1 0x2 0x5 ∧ decode 0xEFA1 = .skipKeyNotPressed 0xF ∧
  decode 0xF30A = .waitForKeypressAndStore 0x3 ∧ decode 0xF155 = .storeRegisters 0x1 ∧ decode 0xF066 = .invalid 0xF066

/-! ### Register loads, ALU, Random (41_alu.md) -/

/-- R131, R132, R133, with their encodings: the constant, the wrapping sum, the copied register; VF is not written unless it is the
destination. -/
def Obligations.LoadsAndAddKWriteOneRegister : Prop :=
  ∀ (s : State) (x y : RegIdx) (kk : Byte),
    DecodesTo (0x6000 + 256 * x.toNat + kk.toNat) (.storeK x kk) ∧
    DecodesTo (0x7000 + 256 * x.toNat + kk.toNat) (.addK x kk) ∧
    DecodesTo (0x8000 + 256 * x.toNat + 16 * y.toNat) (.store x y) ∧
    (∃ t, exec (.storeK x kk) s = .next t ∧ OnlyRegsAndPc [x] s t ∧ PcMoves 2 s t ∧ t.getV x = kk) ∧
    (∃ t, exec (.addK x kk) s = .next t ∧ OnlyRegsAndPc [x] s t ∧ PcMoves 2 s t ∧
      (t.getV x).toNat = ((s.getV x).toNat + kk.toNat) % 256) ∧
    (∃ t, exec (.store x y) s = .next t ∧ OnlyRegsAndPc [x] s t ∧ PcMoves 2 s t ∧ t.getV x = s.getV y)

/-- R134, R135, R136, bit by bit. That VF is not written (unless it is the destination) is the spec's decision D8. -/
def Obligations.LogicActsBitByBitWithoutFlag : Prop :=
  ∀ (s : State) (x y : RegIdx),
    DecodesTo (0x8001 + 256 * x.toNat + 16 * y.toNat) (.or x y) ∧
    DecodesTo (0x8002 + 256 * x.toNat + 16 * y.toNat) (.and x y) ∧
    DecodesTo (0x8003 + 256 * x.toNat + 16 * y.toNat) (.xor x y) ∧
    (∃ t, exec (.or x y) s = .next t ∧ OnlyRegsAndPc [x] s t ∧ PcMoves 2 s t ∧
      ∀ j, j < 8 → (t.getV x).getLsbD j = ((s.getV x).getLsbD j || (s.getV y).getLsbD j)) ∧
    (∃ t, exec (.and x y) s = .next t ∧ OnlyRegsAndPc [x] s t ∧ PcMoves 2 s t ∧
      ∀ j, j < 8 → (t.getV x).getLsbD j = ((s.getV x).getLsbD j && (s.getV y).getLsbD j)) ∧
    (∃ t, exec (.xor x y) s = .next t ∧ OnlyRegsAndPc [x] s t ∧ PcMoves 2 s t ∧
      ∀ j, j < 8 → (t.getV x).getLsbD j = ((s.getV x).getLsbD j != (s.getV y).getLsbD j))

/-- R137, R138, R140, with their encodings, for every destination but VF (the other form: `FlagWinsWhenVfIsDestination`): the result
wraps mod 256, and VF is the carry, or 1 exactly if no borrow occurs. -/
def Obligations.ArithmeticStoresResultAndFlag : Prop :=
  ∀ (s : State) (x y : RegIdx), x ≠ vf →
    DecodesTo (0x8004 + 256 * x.toNat + 16 * y.toNat) (.add x y) ∧
    DecodesTo (0x8005 + 256 * x.toNat + 16 * y.toNat) (.sub x y) ∧
    DecodesTo (0x8007 + 256 * x.toNat + 16 * y.toNat) (.subReversed x y) ∧
    (∃ t, exec (.add x y) s = .next t ∧ OnlyRegsAndPc [x, vf] s t ∧ PcMoves 2 s t ∧
      (t.getV x).toNat = ((s.getV x).toNat + (s.getV y).toNat) % 256 ∧
      FlagIs (t.getV vf) ((s.getV x).toNat + (s.getV y).toNat > 255)) ∧
    (∃ t, exec (.sub x y) s = .next t ∧ OnlyRegsAndPc [x, vf] s t ∧ PcMoves 2 s t ∧
      ((t.getV x).toNat : Int) = (((s.getV x).toNat : Int) - ((s.getV y).toNat : Int)) % 256 ∧
      FlagIs (t.getV vf) ((s.getV x).toNat ≥ (s.getV y).toNat)) ∧
    (∃ t, exec (.subReversed x y) s = .next t ∧ OnlyRegsAndPc [x, vf] s t ∧ PcMoves 2 s t ∧
      ((t.getV x).toNat : Int) = (((s.getV y).toNat : Int) - ((s.getV x).toNat : Int)) % 256 ∧
      FlagIs (t.getV vf) ((s.getV y).toNat ≥ (s.getV x).toNat))

/-- R139, R141, R145, with their encodings, for every destination but VF: the source is `V[y]` under `vy` and `V[x]` under `vx`,
the shift is by one, and VF is the bit shifted out. -/
def Obligations.ShiftsMoveOneBitOfTheSource : Prop :=
  ∀ (s : State) (x y : RegIdx) (src : Byte), x ≠ vf →
    (s.env.params.shiftSource = .vy → src = s.getV y) → (s.env.params.shiftSource = .vx → src = s.getV x) →
    DecodesTo (0x8006 + 256 * x.toNat + 16 * y.toNat) (.shiftRight x y) ∧
    DecodesTo (0x800E + 256 * x.toNat + 16 * y.toNat) (.shiftLeft x y) ∧
    (∃ t, exec (.shiftRight x y) s = .next t ∧ OnlyRegsAndPc [x, vf] s t ∧ PcMoves 2 s t ∧
      (t.getV x).toNat = src.toNat / 2 ∧ FlagIs (t.getV vf) (src.toNat % 2 = 1)) ∧
    (∃ t, exec (.shiftLeft x y) s = .next t ∧ OnlyRegsAndPc [x, vf] s t ∧ PcMoves 2 s t ∧
      (t.getV x).toNat = 2 * src.toNat % 256 ∧ FlagIs (t.getV vf) (src.toNat ≥ 128))

/-- The spec's decision D7 (R143 part b): when a flag-setting ALU instruction names VF as its destination, the arithmetic result
is lost and VF ends as the flag. -/
def Obligations.FlagWinsWhenVfIsDestination : Prop :=
  ∀ (s : State) (y : RegIdx) (src : Byte),
    (s.env.params.shiftSource = .vy → src = s.getV y) → (s.env.params.shiftSource = .vx → src = s.getV vf) →
    (∃ t, exec (.add vf y) s = .next t ∧ OnlyRegsAndPc [vf] s t ∧ PcMoves 2 s t ∧
      FlagIs (t.getV vf) ((s.getV vf).toNat + (s.getV y).toNat > 255)) ∧
    (∃ t, exec (.sub vf y) s = .next t ∧ OnlyRegsAndPc [vf] s t ∧ PcMoves 2 s t ∧
      FlagIs (t.getV vf) ((s.getV vf).toNat ≥ (s.getV y).toNat)) ∧
    (∃ t, exec (.subReversed vf y) s = .next t ∧ OnlyRegsAndPc [vf] s t ∧ PcMoves 2 s t ∧
      FlagIs (t.getV vf) ((s.getV y).toNat ≥ (s.getV vf).toNat)) ∧
    (∃ t, exec (.shiftRight vf y) s = .next t ∧ OnlyRegsAndPc [vf] s t ∧ PcMoves 2 s t ∧
      FlagIs (t.getV vf) (src.toNat % 2 = 1)) ∧
    (∃ t, exec (.shiftLeft vf y) s = .next t ∧ OnlyRegsAndPc [vf] s t ∧ PcMoves 2 s t ∧
      FlagIs (t.getV vf) (src.toNat ≥ 128))

/-- R142, with its encoding: the result is a drawn byte ANDed with the immediate. Which byte is free, or injected (log entry 4):
one draw is consumed, from the injected bytes while there are any and from the free values after. -/
def Obligations.RandomMasksOneDraw : Prop :=
  ∀ (s : State) (x : RegIdx) (kk : Byte),
    DecodesTo (0xC000 + 256 * x.toNat + kk.toNat) (.random x kk) ∧
    ∃ (r : Byte) (t : State), exec (.random x kk) s = .next t ∧
      t = { s with v := t.v, pc := t.pc, env := t.env } ∧ RegsKeptBut [x] s t ∧ PcMoves 2 s t ∧ t.getV x = r &&& kk ∧
      ((s.env.injected = r :: t.env.injected ∧ t.env = { s.env with injected := t.env.injected }) ∨
       (s.env.injected = [] ∧ r = Config.randomByte s.env.draws ∧ t.env = { s.env with draws := s.env.draws + 1 }))

/-! ### Control flow (40_control_flow.md) -/

/-- R113, with its encoding. -/
def Obligations.JumpGoesToItsAddress : Prop :=
  ∀ (s : State) (nnn : Address),
    DecodesTo (0x1000 + nnn.toNat) (.jump nnn) ∧
    ∃ t, exec (.jump nnn) s = .next t ∧ OnlyPc s t ∧ t.pc.toNat = nnn.toNat

/-- R119, with its encoding: the target is `nnn + V[0]`, not masked to 12 bits. That the offset is `V[0]` and that the sum is not
masked is the spec's decision D10. -/
def Obligations.JumpOffsetAddsV0 : Prop :=
  ∀ (s : State) (nnn : Address),
    DecodesTo (0xB000 + nnn.toNat) (.jumpOffset nnn) ∧
    ∃ t, exec (.jumpOffset nnn) s = .next t ∧ OnlyPc s t ∧ t.pc.toNat = (nnn.toNat + (s.getV 0).toNat) % 65536

/-- R114, with its encoding: below 16 entries the address after the call is pushed; at 16 the call is fatal and changes nothing. -/
def Obligations.CallPushesOrOverflows : Prop :=
  ∀ (s : State) (nnn : Address),
    DecodesTo (0x2000 + nnn.toNat) (.call nnn) ∧
    (s.sp.val < 16 → ∃ t, exec (.call nnn) s = .next t ∧ t = { s with pc := t.pc, sp := t.sp, stack := t.stack } ∧
      t.pc.toNat = nnn.toNat ∧ t.sp.val = s.sp.val + 1 ∧
      (∀ j : Fin 16, j.val = s.sp.val → (t.stack[j]).toNat = (s.pc.toNat + 2) % 65536) ∧
      (∀ j : Fin 16, j.val ≠ s.sp.val → t.stack[j] = s.stack[j])) ∧
    (s.sp.val = 16 → ∃ t, exec (.call nnn) s = .next t ∧
      FatalEntry s t .stackOverflow (some (BitVec.ofNat 16 (0x2000 + nnn.toNat))) none)

/-- R112, with its encoding: with an entry live it is popped into PC; with none the return is fatal and changes nothing. -/
def Obligations.ReturnPopsOrUnderflows : Prop :=
  ∀ s : State,
    DecodesTo 0x00EE .ret ∧
    (0 < s.sp.val → ∃ t, exec .ret s = .next t ∧ t = { s with pc := t.pc, sp := t.sp } ∧
      t.sp.val = s.sp.val - 1 ∧ (∀ j : Fin 16, j.val = s.sp.val - 1 → t.pc = s.stack[j])) ∧
    (s.sp.val = 0 → ∃ t, exec .ret s = .next t ∧ FatalEntry s t .stackUnderflow (some 0x00EE) none)

/-- S7 of 95_test_vectors.md, as two steps of the machine: a Call at PC whose target holds a Return brings PC to the instruction
after the Call, leaves the stack as deep as before with every live entry as before, and changes nothing else. -/
def Obligations.CallThenReturnComesBack : Prop :=
  ∀ (s : State) (nnn : Address), s.status = .running → s.env.agenda = [] → s.sp.val < 16 →
    s.pc.toNat + 1 < 4096 → s.opcodeAt s.pc.toNat = 0x2000 + nnn.toNat →
    nnn.toNat + 1 < 4096 → s.opcodeAt nnn.toNat = 0x00EE →
    ∃ t u, step s = .next t ∧ t.pc.toNat = nnn.toNat ∧ step t = .next u ∧ PcMoves 2 s u ∧
      u = { s with pc := u.pc, stack := u.stack } ∧ ∀ j : Fin 16, j.val ≠ s.sp.val → u.stack[j] = s.stack[j]

/-- R115, R116, with their encodings: PC moves by 4 instead of 2 when the condition holds, else by 2, and nothing but PC changes. -/
def Obligations.SkipsCompareRegisterWithConstant : Prop :=
  ∀ (s : State) (x : RegIdx) (kk : Byte),
    DecodesTo (0x3000 + 256 * x.toNat + kk.toNat) (.skipEqualK x kk) ∧
    DecodesTo (0x4000 + 256 * x.toNat + kk.toNat) (.skipNotEqualK x kk) ∧
    (∃ t, exec (.skipEqualK x kk) s = .next t ∧ OnlyPc s t ∧ PcMoves (if (s.getV x).toNat = kk.toNat then 4 else 2) s t) ∧
    (∃ t, exec (.skipNotEqualK x kk) s = .next t ∧ OnlyPc s t ∧
      PcMoves (if (s.getV x).toNat = kk.toNat then 2 else 4) s t)

/-- The two skips that compare two registers (R117, R118), for every word of families 5 and 9: that the low nibble is not examined
is the spec's decision D33. -/
def Obligations.SkipsCompareTwoRegisters : Prop :=
  ∀ (s : State) (x y : RegIdx) (n : Nibble),
    DecodesTo (0x5000 + 256 * x.toNat + 16 * y.toNat + n.toNat) (.skipEqual x y) ∧
    DecodesTo (0x9000 + 256 * x.toNat + 16 * y.toNat + n.toNat) (.skipNotEqual x y) ∧
    (∃ t, exec (.skipEqual x y) s = .next t ∧ OnlyPc s t ∧
      PcMoves (if (s.getV x).toNat = (s.getV y).toNat then 4 else 2) s t) ∧
    (∃ t, exec (.skipNotEqual x y) s = .next t ∧ OnlyPc s t ∧
      PcMoves (if (s.getV x).toNat = (s.getV y).toNat then 2 else 4) s t)

/-- R120: a word of the set of R90 decodes to `Invalid`, and executing that follows the policy: fatal, with the word in the
diagnostic and nothing else changed, or PC + 2 alone. That one policy applies to every invalid word alike is the spec's decision
D5; the model carries it in the state (log entry 1). -/
def Obligations.InvalidFollowsPolicy : Prop :=
  ∀ (s : State) (w : Word),
    (invalidWord w = true → DecodesTo w.toNat (.invalid w)) ∧
    (s.env.params.invalidPolicy = .fatal → ∃ t, exec (.invalid w) s = .next t ∧ FatalEntry s t .invalidOpcode (some w) none) ∧
    (s.env.params.invalidPolicy = .noop → ∃ t, exec (.invalid w) s = .next t ∧ OnlyPc s t ∧ PcMoves 2 s t)

/-- R111, with its encoding: `Sys` executes exactly as `Invalid`. That it does is the spec's decision D4, and that family 0
matches 0x00E0 and 0x00EE on the whole word its decision D34. -/
def Obligations.SysFollowsPolicy : Prop :=
  ∀ (s : State) (nnn : Address),
    (nnn.toNat ≠ 0x0E0 → nnn.toNat ≠ 0x0EE → DecodesTo nnn.toNat (.sys nnn)) ∧
    (s.env.params.invalidPolicy = .fatal →
      ∃ t, exec (.sys nnn) s = .next t ∧ FatalEntry s t .invalidOpcode (some (BitVec.ofNat 16 nnn.toNat)) none) ∧
    (s.env.params.invalidPolicy = .noop → ∃ t, exec (.sys nnn) s = .next t ∧ OnlyPc s t ∧ PcMoves 2 s t) ∧
    exec (.sys nnn) s = exec (.invalid (BitVec.ofNat 16 nnn.toNat)) s

/-! ### The index register and memory (42_index_memory.md) -/

/-- R151, with its encoding. -/
def Obligations.StoreILoadsTheAddress : Prop :=
  ∀ (s : State) (nnn : Address),
    DecodesTo (0xA000 + nnn.toNat) (.storeI nnn) ∧
    ∃ t, exec (.storeI nnn) s = .next t ∧ t = { s with i := t.i, pc := t.pc } ∧ PcMoves 2 s t ∧ t.i.toNat = nnn.toNat

/-- R152, R153, with their encodings: I moves on by the register mod 2^16, or points at the glyph of the register's low nibble. That
the sum is not masked to 12 bits and that VF is not written is the spec's decision D9; the font and its place are its decision
D20. -/
def Obligations.AddIAndGlyphAddressWriteI : Prop :=
  ∀ (s : State) (x : RegIdx),
    DecodesTo (0xF01E + 256 * x.toNat) (.addI x) ∧
    DecodesTo (0xF029 + 256 * x.toNat) (.glyphAddress x) ∧
    (∃ t, exec (.addI x) s = .next t ∧ t = { s with i := t.i, pc := t.pc } ∧ PcMoves 2 s t ∧
      t.i.toNat = (s.i.toNat + (s.getV x).toNat) % 65536) ∧
    (∃ t, exec (.glyphAddress x) s = .next t ∧ t = { s with i := t.i, pc := t.pc } ∧ PcMoves 2 s t ∧
      t.i.toNat = 0x000 + 5 * ((s.getV x).toNat % 16))

/-- R154, with its encoding: the three digits go to I, I+1, I+2, which spell the value; I stays; if one of the three addresses is
outside memory none is written and the fatal condition records the lowest such address. -/
def Obligations.StoreBCDWritesThreeDigits : Prop :=
  ∀ (s : State) (x : RegIdx), s.MemInv →
    DecodesTo (0xF033 + 256 * x.toNat) (.storeBCD x) ∧
    (s.i.toNat + 2 < 4096 → ∃ t, exec (.storeBCD x) s = .next t ∧ t = { s with mem := t.mem, pc := t.pc } ∧ PcMoves 2 s t ∧
      (t.byteAt s.i.toNat).toNat = (s.getV x).toNat / 100 ∧
      (t.byteAt (s.i.toNat + 1)).toNat = (s.getV x).toNat / 10 % 10 ∧
      (t.byteAt (s.i.toNat + 2)).toNat = (s.getV x).toNat % 10 ∧
      (∀ a, (a < s.i.toNat ∨ s.i.toNat + 2 < a) → t.byteAt a = s.byteAt a)) ∧
    (s.i.toNat + 2 ≥ 4096 → ∃ t a, exec (.storeBCD x) s = .next t ∧ LowestOutside s.i.toNat 3 a ∧
      FatalEntry s t .memoryOutOfBounds (some (BitVec.ofNat 16 (0xF033 + 256 * x.toNat))) (some ⟨.dataWrite, a⟩))

/-- R155, with its encoding: `V[0]` to `V[x]` go to memory from I on, I advances by x + 1 mod 2^16, or nothing but the fatal
condition happens. -/
def Obligations.StoreRegistersFillsMemory : Prop :=
  ∀ (s : State) (x : RegIdx), s.MemInv →
    DecodesTo (0xF055 + 256 * x.toNat) (.storeRegisters x) ∧
    (s.i.toNat + x.toNat < 4096 → ∃ t, exec (.storeRegisters x) s = .next t ∧
      t = { s with mem := t.mem, i := t.i, pc := t.pc } ∧ PcMoves 2 s t ∧
      t.i.toNat = (s.i.toNat + x.toNat + 1) % 65536 ∧
      (∀ r : RegIdx, r.toNat ≤ x.toNat → t.byteAt (s.i.toNat + r.toNat) = s.getV r) ∧
      (∀ a, (a < s.i.toNat ∨ s.i.toNat + x.toNat < a) → t.byteAt a = s.byteAt a)) ∧
    (s.i.toNat + x.toNat ≥ 4096 → ∃ t a, exec (.storeRegisters x) s = .next t ∧ LowestOutside s.i.toNat (x.toNat + 1) a ∧
      FatalEntry s t .memoryOutOfBounds (some (BitVec.ofNat 16 (0xF055 + 256 * x.toNat))) (some ⟨.dataWrite, a⟩))

/-- R156, with its encoding: `V[0]` to `V[x]` come from memory from I on, I advances by x + 1 mod 2^16, memory stays, or nothing
but the fatal condition happens. -/
def Obligations.LoadRegistersReadsMemory : Prop :=
  ∀ (s : State) (x : RegIdx),
    DecodesTo (0xF065 + 256 * x.toNat) (.loadRegisters x) ∧
    (s.i.toNat + x.toNat < 4096 → ∃ t, exec (.loadRegisters x) s = .next t ∧
      t = { s with v := t.v, i := t.i, pc := t.pc } ∧ PcMoves 2 s t ∧
      t.i.toNat = (s.i.toNat + x.toNat + 1) % 65536 ∧
      (∀ r : RegIdx, r.toNat ≤ x.toNat → t.getV r = s.byteAt (s.i.toNat + r.toNat)) ∧
      (∀ r : RegIdx, x.toNat < r.toNat → t.getV r = s.getV r)) ∧
    (s.i.toNat + x.toNat ≥ 4096 → ∃ t a, exec (.loadRegisters x) s = .next t ∧ LowestOutside s.i.toNat (x.toNat + 1) a ∧
      FatalEntry s t .memoryOutOfBounds (some (BitVec.ofNat 16 (0xF065 + 256 * x.toNat))) (some ⟨.dataRead, a⟩))

/-- Storing a block and loading it back from the same I restores the registers, whatever they hold in between, and memory keeps
what was stored (R155, R156, R217: I must be set again in between). -/
def Obligations.StoredBlockLoadsBack : Prop :=
  ∀ (s : State) (x : RegIdx) (regs : Vector Byte 16), s.MemInv → s.i.toNat + x.toNat < 4096 →
    ∃ t u, exec (.storeRegisters x) s = .next t ∧ exec (.loadRegisters x) { t with i := s.i, v := regs } = .next u ∧
      u.mem = t.mem ∧ (∀ r : RegIdx, r.toNat ≤ x.toNat → u.getV r = s.getV r)

/-- A store is seen by the very next fetch (R72): StoreRegisters V0 with I at PC + 2 or PC + 3 patches the instruction that runs
next. -/
def Obligations.NextFetchSeesTheStore : Prop :=
  ∀ s : State, s.MemInv → s.status = .running → s.env.agenda = [] → s.pc.toNat + 3 < 4096 →
    s.opcodeAt s.pc.toNat = 0xF055 →
    (s.i.toNat = s.pc.toNat + 2 → ∃ t, step s = .next t ∧ PcMoves 2 s t ∧
      step t = exec (decode (BitVec.ofNat 16 (256 * (s.getV 0).toNat + (s.byteAt (s.pc.toNat + 3)).toNat))) t) ∧
    (s.i.toNat = s.pc.toNat + 3 → ∃ t, step s = .next t ∧ PcMoves 2 s t ∧
      step t = exec (decode (BitVec.ofNat 16 (256 * (s.byteAt (s.pc.toNat + 2)).toNat + (s.getV 0).toNat))) t)

/-! ### Display, keys, timers (43_display_keys_timers.md) -/

/-- R160, with its encoding. -/
def Obligations.ClearDisplayUnsetsEveryBit : Prop :=
  ∀ s : State,
    DecodesTo 0x00E0 .clearDisplay ∧
    ∃ t, exec .clearDisplay s = .next t ∧ t = { s with fb := t.fb, pc := t.pc } ∧ PcMoves 2 s t ∧
      ∀ (r : Fin 32) (c : Fin 64), t.fb[r][c] = false

/-- R162, with its encoding, for both values of DRAW_VERTICAL: every framebuffer bit is XORed with whether a set sprite bit lands
on it, VF is 1 exactly if some bit went from set to unset, written last, and nothing but the framebuffer, VF and PC changes.
A height of 0 draws nothing and never faults. Which bit of a sprite byte is leftmost is the spec's decision D13, what a height of
0 does its decision D27, that I is kept its decision D26, and the two values of DRAW_VERTICAL are its decision D12. -/
def Obligations.DrawXorsTheSprite : Prop :=
  ∀ (s : State) (x y : RegIdx) (n : Nibble),
    DecodesTo (0xD000 + 256 * x.toNat + 16 * y.toNat + n.toNat) (.draw x y n) ∧
    (n.toNat = 0 ∨ s.i.toNat + n.toNat - 1 < 4096 → ∃ t, exec (.draw x y n) s = .next t ∧
      t = { s with fb := t.fb, v := t.v, pc := t.pc } ∧ RegsKeptBut [vf] s t ∧ PcMoves 2 s t ∧
      (∀ (yy : Fin 32) (xx : Fin 64), s.CoversPixel x y n yy xx → t.fb[yy][xx] = !s.fb[yy][xx]) ∧
      (∀ (yy : Fin 32) (xx : Fin 64), ¬s.CoversPixel x y n yy xx → t.fb[yy][xx] = s.fb[yy][xx]) ∧
      FlagIs (t.getV vf) (∃ (yy : Fin 32) (xx : Fin 64), s.fb[yy][xx] = true ∧ t.fb[yy][xx] = false))

/-- R162, its fault: if any of the `n` sprite bytes lies outside memory, whether or not its row would be drawn (the spec's
decision D42), nothing but the fatal condition happens. -/
def Obligations.DrawFaultsOutsideMemory : Prop :=
  ∀ (s : State) (x y : RegIdx) (n : Nibble), n.toNat > 0 → s.i.toNat + n.toNat - 1 ≥ 4096 →
    ∃ t a, exec (.draw x y n) s = .next t ∧ LowestOutside s.i.toNat n.toNat a ∧
      FatalEntry s t .memoryOutOfBounds (some (BitVec.ofNat 16 (0xD000 + 256 * x.toNat + 16 * y.toNat + n.toNat)))
        (some ⟨.spriteRead, a⟩)

/-- R162, a corner case: drawing the same sprite twice at the same place restores the framebuffer, and the second draw sets VF
exactly if a pixel the sprite covers was unset before: what the Operation gives, where the rule's own sentence on VF is wider (log
entry 12). (Neither coordinate is VF, which the first draw overwrites.) -/
def Obligations.DrawingTwiceRestores : Prop :=
  ∀ (s : State) (x y : RegIdx) (n : Nibble), x ≠ vf → y ≠ vf → (n.toNat = 0 ∨ s.i.toNat + n.toNat - 1 < 4096) →
    ∃ t u, exec (.draw x y n) s = .next t ∧ exec (.draw x y n) t = .next u ∧ u.fb = s.fb ∧
      (FlagIs (u.getV vf) (∃ (yy : Fin 32) (xx : Fin 64), s.CoversPixel x y n yy xx ∧ s.fb[yy][xx] = false))

/-- R163, R164, with their encodings. That the key is named by the low nibble of the register is the spec's decision D15 (R170). -/
def Obligations.SkipsOnKeyLevel : Prop :=
  ∀ (s : State) (x : RegIdx) (k : Nibble), k.toNat = (s.getV x).toNat % 16 →
    DecodesTo (0xE09E + 256 * x.toNat) (.skipKeyPressed x) ∧
    DecodesTo (0xE0A1 + 256 * x.toNat) (.skipKeyNotPressed x) ∧
    (∃ t, exec (.skipKeyPressed x) s = .next t ∧ OnlyPc s t ∧ PcMoves (if s.getKey k = true then 4 else 2) s t) ∧
    (∃ t, exec (.skipKeyNotPressed x) s = .next t ∧ OnlyPc s t ∧ PcMoves (if s.getKey k = true then 2 else 4) s t)

/-- R165, R168, R169, with their encodings: DT is read, DT is written, ST is written; a nonzero ST turns the tone on at once and zero
turns it off. -/
def Obligations.TimerInstructionsReadAndWrite : Prop :=
  ∀ (s : State) (x : RegIdx),
    DecodesTo (0xF007 + 256 * x.toNat) (.readDelayTimer x) ∧
    DecodesTo (0xF015 + 256 * x.toNat) (.setDelayTimer x) ∧
    DecodesTo (0xF018 + 256 * x.toNat) (.setSoundTimer x) ∧
    (∃ t, exec (.readDelayTimer x) s = .next t ∧ OnlyRegsAndPc [x] s t ∧ PcMoves 2 s t ∧ t.getV x = s.dt) ∧
    (∃ t, exec (.setDelayTimer x) s = .next t ∧ t = { s with dt := t.dt, pc := t.pc } ∧ PcMoves 2 s t ∧ t.dt = s.getV x) ∧
    (∃ t, exec (.setSoundTimer x) s = .next t ∧ t = { s with st := t.st, pc := t.pc } ∧ PcMoves 2 s t ∧ t.st = s.getV x ∧
      (t.toneOn = true ↔ (s.getV x).toNat ≠ 0))

/-- R166, with its encoding: executing it suspends the core with PC and registers unchanged; the key-press event of a key not held
then stores the key code, advances PC by 2 and resumes; a key already held, and a key released, never complete the wait. What a
key-press event is, is the spec's decision D16. -/
def Obligations.WaitForKeypressSuspendsAndResumes : Prop :=
  ∀ (s : State) (x : RegIdx) (k : Nibble),
    DecodesTo (0xF00A + 256 * x.toNat) (.waitForKeypressAndStore x) ∧
    ∃ t, exec (.waitForKeypressAndStore x) s = .next t ∧ t = { s with status := .waitKey x } ∧
      (s.getKey k = false → RegsKeptBut [x] s (t.keyDown k) ∧ ((t.keyDown k).getV x).toNat = k.toNat ∧
        PcMoves 2 s (t.keyDown k) ∧ (t.keyDown k).getKey k = true ∧
        (∀ j, j ≠ k → (t.keyDown k).getKey j = s.getKey j) ∧
        t.keyDown k =
          { s with v := (t.keyDown k).v, pc := (t.keyDown k).pc, keys := (t.keyDown k).keys, status := .running }) ∧
      (s.getKey k = true → t.keyDown k = t) ∧ (t.keyUp k).status = .waitKey x ∧ (t.keyUp k).v = s.v ∧ (t.keyUp k).pc = s.pc

/-! ### Fatal conditions (60_exceptions.md) -/

/-- R180, the complete list: a step of a running core raises a fatal condition exactly under the conditions of the table, the
fetch first. -/
def Obligations.FatalExactlyWhenListed : Prop :=
  ∀ (s : State) (c : Cause), s.status = .running → s.env.agenda = [] →
    ((∃ t d, step s = .next t ∧ t.status = .faulted d ∧ d.cause = c) ↔
      (c = .memoryOutOfBounds ∧ s.pc.toNat + 1 ≥ 4096) ∨
      (s.pc.toNat + 1 < 4096 ∧ RaisesWhen s (decode (BitVec.ofNat 16 (s.opcodeAt s.pc.toNat))) c))

/-- R184, with R182 and R183: when an instruction raises a fatal condition, the status alone changes; the diagnostic holds the
instruction's address and, as its word, the canonical encoding (the model's inference that the two are one word, log entry 14).
The no-partial-effect part is the spec's decision D17. -/
def Obligations.FatalConditionsArePrecise : Prop :=
  ∀ (i : Instr) (s t : State) (d : Diagnostic), exec i s = .next t → s.status = .running → t.status = .faulted d →
    t = { s with status := .faulted d } ∧ d.faultPc = s.pc ∧ d.faultOpcode = some (encode i) ∧
    (d.cause ≠ .memoryOutOfBounds → d.faultInfo = none)

/-- R185: only a reset leaves FAULTED; every other step of any agent keeps the diagnostic, the registers, PC, I, the stack, the
framebuffer and memory. -/
def Obligations.OnlyResetLeavesFaulted : Prop :=
  ∀ (s t : State) (d : Diagnostic), s.status = .faulted d → step s = .next t →
    (∃ image rest, s.env.agenda = .reset image :: rest ∧ t.status = .running) ∨
    t = { s with dt := t.dt, st := t.st, keys := t.keys, env := { s.env with agenda := t.env.agenda } }

/-! ### The engine step, the Timer Clock and the host (10_state.md, 60_exceptions.md, 70_reset_and_hazards.md) -/

/-- R36: a running core whose two bytes at PC lie inside memory executes exactly the instruction they decode to, with nothing added
around it; otherwise the fetch is fatal and changes nothing. When the engine's step stands on the schedule (log entry 5) it is
taken off, and the same happens. -/
def Obligations.StepRunsTheDecodedInstruction : Prop :=
  ∀ (s u : State) (rest : List AgentStep) (i : Instr), s.status = .running →
    (s.env.agenda = [] ∧ u = s) ∨ (s.env.agenda = .engine :: rest ∧ u = { s with env := { s.env with agenda := rest } }) →
    (s.pc.toNat + 1 < 4096 → decodeBytes [s.byteAt s.pc.toNat, s.byteAt (s.pc.toNat + 1)] = .ok (i, []) →
      step s = exec i u ∧ i = decode (BitVec.ofNat 16 (s.opcodeAt s.pc.toNat))) ∧
    (s.pc.toNat + 1 ≥ 4096 → ∃ t a, step s = .next t ∧ LowestOutside s.pc.toNat 2 a ∧
      FatalEntry u t .memoryOutOfBounds none (some ⟨.fetch, a⟩))

/-- R33, by the model's choice (log entries 6 and 7): with nothing scheduled, a waiting core stays as it is, and a FAULTED core
surfaces its diagnostic as the outcome `fault`. -/
def Obligations.EngineHasNoStepUnlessRunning : Prop :=
  ∀ s : State, s.env.agenda = [] →
    (∀ x, s.status = .waitKey x → step s = .next s) ∧
    (∀ d, s.status = .faulted d → step s = .fault (.stopped d))

/-- Every step of the machine answers a next state, with two exceptions, both the model's choice: a FAULTED core with nothing
scheduled surfaces its diagnostic as the outcome `fault` (log entry 7), and a scheduled reset with an image longer than 3584 bytes
is refused (log entry 8, the spec's decision D31). So no instruction is refused in any state. -/
def Obligations.StepStopsOnlyWhenFaultedOrImageTooLong : Prop :=
  ∀ s : State,
    (∃ t, step s = .next t) ∨
    (∃ d, s.env.agenda = [] ∧ s.status = .faulted d ∧ step s = .fault (.stopped d)) ∨
    (∃ image rest, s.env.agenda = .reset image :: rest ∧ image.length > 3584 ∧
      step s = .refused (.imageTooLong image.length))

/-- R196 in every status: a scheduled tick decrements each timer that is above 0, and touches nothing else. That it acts on both in
one step, and in every status, are the spec's decisions D21 and D36. -/
def Obligations.TickDecrementsBothTimers : Prop :=
  ∀ (s : State) (rest : List AgentStep), s.env.agenda = .tick :: rest →
    ∃ t, step s = .next t ∧ t = { s with dt := t.dt, st := t.st, env := { s.env with agenda := rest } } ∧
      t.dt.toNat = s.dt.toNat - 1 ∧ t.st.toNat = s.st.toNat - 1

/-- R197: after a write of `v` to a timer and `j` ticks the value is `max(v - j, 0)`. And with the fairness of R196, that the Timer
Clock ticks again eventually: in every fair interleaving of the agents a timer that no instruction writes any more reaches 0 and
stays there, whatever the engine and the host do between the ticks. -/
def Obligations.TimersCountDownToZero : Prop :=
  (∀ (s t : State) (x : RegIdx) (j : Nat),
    (exec (.setDelayTimer x) s = .next t → ((State.tick^[j] t).dt).toNat = (s.getV x).toNat - j) ∧
    (exec (.setSoundTimer x) s = .next t → ((State.tick^[j] t).st).toNat = (s.getV x).toNat - j)) ∧
  (∀ (agent : Nat → AgentStep) (σ : Nat → State) (n : Nat), Interleaving agent σ → TimerClockFair agent →
    ((∀ k x, n ≤ k → agent k = .engine → ¬(σ k).Executes (.setDelayTimer x)) → ∃ m, n ≤ m ∧ ∀ k, m ≤ k → (σ k).dt = 0) ∧
    ((∀ k x, n ≤ k → agent k = .engine → ¬(σ k).Executes (.setSoundTimer x)) → ∃ m, n ≤ m ∧ ∀ k, m ≤ k → (σ k).st = 0))

/-- R38 in every status: KeyDown of a held key and KeyUp change no more than that key; KeyDown of a key not held presses it, and
completes a wait if one is pending; the three samples change nothing and give the framebuffer, ST and the status. The names and the
event are the spec's decision D16; that a step is taken off the schedule is log entry 5. -/
def Obligations.KeyStepsActOnOneKey : Prop :=
  ∀ (s : State) (k : Nibble) (rest : List AgentStep) (u : State), u = { s with env := { s.env with agenda := rest } } →
    (s.env.agenda = .keyDown k :: rest → s.getKey k = true → step s = .next u) ∧
    (s.env.agenda = .keyDown k :: rest → s.getKey k = false → (∀ x, s.status ≠ .waitKey x) →
      ∃ t, step s = .next t ∧ t = { u with keys := t.keys } ∧ t.getKey k = true ∧ ∀ j, j ≠ k → t.getKey j = s.getKey j) ∧
    (s.env.agenda = .keyDown k :: rest → s.getKey k = false → ∀ x, s.status = .waitKey x →
      ∃ t, step s = .next t ∧ t = { u with keys := t.keys, v := t.v, pc := t.pc, status := .running } ∧
        t.getKey k = true ∧ (∀ j, j ≠ k → t.getKey j = s.getKey j) ∧
        RegsKeptBut [x] s t ∧ (t.getV x).toNat = k.toNat ∧ PcMoves 2 s t) ∧
    (s.env.agenda = .keyUp k :: rest →
      ∃ t, step s = .next t ∧ t = { u with keys := t.keys } ∧ t.getKey k = false ∧ ∀ j, j ≠ k → t.getKey j = s.getKey j) ∧
    (s.env.agenda = .sampleFramebuffer :: rest → step s = .next u ∧ s.sampleFramebuffer = s.fb) ∧
    (s.env.agenda = .sampleSound :: rest → step s = .next u ∧ s.sampleSound = s.st) ∧
    (s.env.agenda = .readStatus :: rest → step s = .next u ∧ s.readStatus = s.status)

/-- R211 in every status: a reset gives the state of R41 for its image, whatever the state was; the parameters and the random source
are not touched. The glyph table is written out, five bytes a digit, as R157 gives it. The values of I, SP, the stack, the timers,
the framebuffer, the keys, the status and memory outside the image are the spec's decisions D19 and D20; that an image longer than 3584 bytes is refused (R212) is its decision D31. -/
def Obligations.ResetRestoresThePostLoadState : Prop :=
  ∀ (s : State) (image : List Byte) (rest : List AgentStep), s.env.agenda = .reset image :: rest →
    (image.length ≤ 3584 →
      ∃ t, step s = .next t ∧ t.pc.toNat = 0x200 ∧ (∀ r, t.getV r = 0) ∧ t.i = 0 ∧ t.sp.val = 0 ∧
        (∀ j : Fin 16, t.stack[j] = 0) ∧ t.dt = 0 ∧ t.st = 0 ∧ (∀ (r : Fin 32) (c : Fin 64), t.fb[r][c] = false) ∧
        (∀ k, t.getKey k = false) ∧ t.status = .running ∧ t.env = { s.env with agenda := rest } ∧
        (∀ j (h : j < image.length), t.byteAt (0x200 + j) = image[j]) ∧
        (∀ a, 0x50 ≤ a → (a < 0x200 ∨ 0x200 + image.length ≤ a) → t.byteAt a = 0) ∧
        (∀ d j, d < 16 → j < 5 → (t.byteAt (5 * d + j)).toNat =
          [0xF0909090F0, 0x2060202070, 0xF010F080F0, 0xF010F010F0, 0x9090F01010, 0xF080F010F0, 0xF080F090F0, 0xF010204040,
            0xF090F090F0, 0xF090F010F0, 0xF090F09090, 0xE090E090E0, 0xF0808080F0, 0xE0909090E0, 0xF080F080F0,
            0xF080F08080].getD d 0 / 256 ^ (4 - j) % 256)) ∧
    (image.length > 3584 → step s = .refused (.imageTooLong image.length))

/-- R203: what leaves WAIT_KEY is a key-press event, which stores its key, moves PC and keeps everything else, or a reset; every
other step of any agent keeps everything but the timers and the keys. That the event is KeyDown of a key not held, and what it
does, is the spec's decision D16; that the engine's turn idles or passes while the core waits is log entries 6 and 5. -/
def Obligations.OnlyKeyEventOrResetLeavesWait : Prop :=
  ∀ (s t : State) (x : RegIdx), s.status = .waitKey x → step s = .next t →
    (∃ image rest, s.env.agenda = .reset image :: rest ∧ t.status = .running) ∨
    (∃ k rest, s.env.agenda = .keyDown k :: rest ∧ s.getKey k = false ∧
      t = { s with v := t.v, pc := t.pc, keys := t.keys, status := .running, env := { s.env with agenda := rest } } ∧
      RegsKeptBut [x] s t ∧ (t.getV x).toNat = k.toNat ∧ PcMoves 2 s t ∧
      t.getKey k = true ∧ ∀ j, j ≠ k → t.getKey j = s.getKey j) ∨
    t = { s with dt := t.dt, st := t.st, keys := t.keys, env := { s.env with agenda := s.env.agenda.tail } }

/-- R43: a program has ended, by the model's definition (log entry 16, asked for by the spec's decision D41), exactly when the core
is RUNNING at a `Jump` to its own address. That state is a fixed point of the engine step, and every scheduled step but a reset
leaves the program ended and keeps everything but the timers and the keys. -/
def Obligations.SelfJumpIsAFixedPoint : Prop :=
  ∀ s : State,
    (s.ended = true ↔
      s.status = .running ∧ s.pc.toNat + 1 < 4096 ∧ s.opcodeAt s.pc.toNat = 0x1000 + s.pc.toNat) ∧
    (s.ended = true → s.env.agenda = [] → step s = .next s) ∧
    (∀ t, s.ended = true → step s = .next t →
      (∃ image rest, s.env.agenda = .reset image :: rest) ∨
      (t.ended = true ∧
        t = { s with dt := t.dt, st := t.st, keys := t.keys, env := { s.env with agenda := s.env.agenda.tail } }))

/-! ### Invariants every step keeps -/

/-- Every step of the machine, and every step of any agent whatever the schedule says, keeps memory in its canonical form. -/
def Obligations.StepKeepsMemoryCanonical : Prop :=
  ∀ s t : State, s.MemInv → step s = .next t ∨ SomeAgentMoves s t → t.MemInv

/-- Every step of the machine, and every step of any agent whatever the schedule says, keeps the status truthful: a
waiting core stands at its WaitForKeypressAndStore, and a FAULTED core's diagnostic names the PC, the opcode there and a cause whose
condition holds (R33, R180, R182). -/
def Obligations.StepKeepsStatusTruthful : Prop :=
  ∀ s t : State, s.StatusInv → step s = .next t ∨ SomeAgentMoves s t → t.StatusInv

/-- The state after reset meets both invariants. -/
def Obligations.ResetMeetsTheInvariants : Prop :=
  State.reset.MemInv ∧ State.reset.StatusInv ∧ State.reset.live = true

/-! ### Whole-machine rules and frames -/

/-- R21: an instruction changes VF only if it is one of the six that set a flag, or names VF as its destination; and a flag-setting
instruction that raises nothing leaves VF 0 or 1. -/
def Obligations.VfWrittenOnlyAsFlagOrDestination : Prop :=
  ∀ (i : Instr) (s t : State), exec i s = .next t →
    (t.getV vf ≠ s.getV vf → i.setsFlag = true ∨ vf ∈ i.destinations) ∧
    (i.setsFlag = true → s.live = true → t.live = true → t.getV vf = 0 ∨ t.getV vf = 1)

/-- The register frame of every instruction (R39): a register that is neither a destination nor, for a flag-setting instruction,
VF keeps its value. -/
def Obligations.RegistersKeptButDestinations : Prop :=
  ∀ (i : Instr) (s t : State) (r : RegIdx), exec i s = .next t →
    r ∉ i.destinations → (i.setsFlag = true → r ≠ vf) → t.getV r = s.getV r

/-- The memory frame of every instruction (R60, R65): a byte outside the bytes the instruction stores to, from I on, keeps its
value; for an instruction that stores nothing every byte does. -/
def Obligations.MemoryKeptOutsideStoredBytes : Prop :=
  ∀ (i : Instr) (s t : State) (a : Nat), s.MemInv → exec i s = .next t →
    (a < s.i.toNat ∨ s.i.toNat + i.storedCount ≤ a) → t.byteAt a = s.byteAt a

/-- The frame of the ALU family (R130): but for the registers, PC and (for Random) the random source, nothing changes, nothing is
raised, and PC moves by 2. -/
def Obligations.AluFamilyTouchesOnlyRegisters : Prop :=
  ∀ (i : Instr) (s : State), i.row ∈ [9, 10, 11, 12, 13, 14, 15, 16, 17, 18, 19, 23] →
    ∃ t, exec i s = .next t ∧ PcMoves 2 s t ∧ t = { s with v := t.v, pc := t.pc, env := t.env } ∧
      (i.row ≠ 23 → t.env = s.env) ∧ t.env.agenda = s.env.agenda

/-- The frame of control flow and the skips (R110): no register, I, memory, framebuffer, timer or key changes; the stack changes
only in a Call, SP only in a Call or a Return. -/
def Obligations.ControlFlowTouchesOnlyPcAndStack : Prop :=
  ∀ (i : Instr) (s t : State), i.row ∈ [2, 3, 4, 5, 6, 7, 8, 20, 22, 25, 26, 36] → exec i s = .next t →
    t = { s with pc := t.pc, sp := t.sp, stack := t.stack, status := t.status } ∧
    (i.row ≠ 5 → t.stack = s.stack) ∧ (i.row ≠ 5 → i.row ≠ 2 → t.sp = s.sp)

/-- The frame of the display, timer, wait and index instructions (R39): the stack, SP and the keys are kept by all of them; the
framebuffer changes only in ClearDisplay and Draw, DT only in SetDelayTimer, ST only in SetSoundTimer, I only in the five
instructions that write it. -/
def Obligations.DeviceAndIndexFrames : Prop :=
  ∀ (i : Instr) (s t : State), exec i s = .next t →
    t.keys = s.keys ∧ (i.row ≠ 1 → i.row ≠ 24 → t.fb = s.fb) ∧ (i.row ≠ 29 → t.dt = s.dt) ∧ (i.row ≠ 30 → t.st = s.st) ∧
    (i.row ∉ [21, 31, 32, 34, 35] → t.i = s.i) ∧ (i.row ≠ 5 → t.stack = s.stack) ∧
    (i.row ≠ 5 → i.row ≠ 2 → t.sp = s.sp) ∧ (i.row ≠ 23 → t.env = s.env)

/-- R30, R32: no step of any agent changes the parameters of the core. The model carries them in the state (log entries 1 to 3). -/
def Obligations.ParametersNeverChange : Prop :=
  ∀ s t : State, step s = .next t → t.env.params = s.env.params

/-- R26: no instruction reads the sound timer: with another value in ST every instruction does the same to everything else, and
leaves that value unless it is SetSoundTimer. -/
def Obligations.NoInstructionReadsST : Prop :=
  ∀ (i : Instr) (s t : State) (b : Byte), exec i s = .next t →
    exec i { s with st := b } = .next { t with st := if i.row = 30 then t.st else b }

/-- R24: nothing observes a stack entry at or above SP: two states that differ only there take steps to states that differ only
there, for every step of every agent. -/
def Obligations.DeadStackEntriesAreUnobservable : Prop :=
  ∀ s s' t : State, SameButDeadEntries s s' → step s = .next t → ∃ t', step s' = .next t' ∧ SameButDeadEntries t t'
end

