-- ==== Sys2Proof/Laws/Memory.lean ====
section
/-! SUPPORT. The laws of memory: the canonical form is kept, a read after a write, and what the bounds check answers. -/

namespace Sys2Proof.Machine

/-! ### The canonical form -/

theorem wfFrom_cons {low a : Nat} {b : Byte} {m : Memory} :
    Memory.wfFrom low ((a, b) :: m) = true ↔
      low ≤ a ∧ a < Config.memSize ∧ b ≠ Memory.unlisted a ∧ Memory.wfFrom (a + 1) m = true := by
  simp [Memory.wfFrom, and_assoc]

theorem wfFrom_mono {m : Memory} {low low' : Nat} (h : low' ≤ low) (hw : m.wfFrom low = true) : m.wfFrom low' = true := by
  cases m with
  | nil => rfl
  | cons c m =>
    rw [wfFrom_cons] at hw ⊢
    exact ⟨le_trans h hw.1, hw.2⟩

theorem put_wfFrom {m : Memory} {low a : Nat} (b : Byte) (hl : low ≤ a) (ha : a < Config.memSize)
    (hw : m.wfFrom low = true) : (m.put a b).wfFrom low = true := by
  induction m generalizing low with
  | nil =>
    unfold Memory.put
    split
    · rfl
    · rw [wfFrom_cons]; exact ⟨hl, ha, ‹_›, rfl⟩
  | cons c m ih =>
    obtain ⟨k, v⟩ := c
    have hw' := wfFrom_cons.1 hw
    unfold Memory.put
    split_ifs with h1 h2 h3 h4
    · exact hw
    · rw [wfFrom_cons]
      exact ⟨hl, ha, h2, wfFrom_cons.2 ⟨by omega, hw'.2⟩⟩
    · exact wfFrom_mono (by omega) hw'.2.2.2
    · rw [wfFrom_cons]
      subst h3
      exact ⟨hl, ha, h4, hw'.2.2.2⟩
    · rw [wfFrom_cons]
      exact ⟨hw'.1, hw'.2.1, hw'.2.2.1, ih (by omega) hw'.2.2.2⟩

/-- A store keeps the canonical form. -/
theorem write_wf {m : Memory} (a : Nat) (b : Byte) (hw : m.wf = true) : (m.write a b).wf = true := by
  unfold Memory.write
  split
  · exact put_wfFrom b (Nat.zero_le a) ‹_› hw
  · exact hw

/-- Storing a run of bytes keeps the canonical form. -/
theorem writeBytes_wf {m : Memory} (a : Nat) (bs : List Byte) (hw : m.wf = true) : (m.writeBytes a bs).wf = true := by
  induction bs generalizing m a with
  | nil => exact hw
  | cons b bs ih => exact ih (a + 1) (write_wf a b hw)

/-- Memory at reset is in canonical form. -/
theorem reset_mem_wf : State.reset.mem.wf = true := rfl

/-! ### Read after write -/

theorem read_below {m : Memory} {low a : Nat} (h : a < low) (hw : m.wfFrom low = true) : m.read a = Memory.unlisted a := by
  cases m with
  | nil => rfl
  | cons c m =>
    have hw' := wfFrom_cons.1 hw
    unfold Memory.read
    rw [if_pos (by omega)]

theorem read_put {m : Memory} {low : Nat} (a c : Nat) (b : Byte) (hw : m.wfFrom low = true) :
    (m.put a b).read c = if c = a then b else m.read c := by
  induction m generalizing low with
  | nil =>
    unfold Memory.put
    split_ifs with h1 h2 h2
    · subst h2; rw [h1]; rfl
    · rfl
    · subst h2; simp [Memory.read]
    · unfold Memory.read; split_ifs <;> rfl
  | cons e m ih =>
    obtain ⟨k, v⟩ := e
    have hw' := wfFrom_cons.1 hw
    unfold Memory.put
    split_ifs with h1 h2 h3 h3 h4 h5 h6 h6 h5
    · subst h3; rw [h2]; unfold Memory.read; rw [if_pos h1]
    · rfl
    · subst h3; simp [Memory.read]
    · rw [Memory.read]
      by_cases hc : c < a
      · rw [if_pos hc, Memory.read, if_pos (by omega)]
      · rw [if_neg hc, if_neg h3]
    · subst h6 h4; rw [h5]; exact read_below (by omega) hw'.2.2.2
    · subst h4
      rw [Memory.read.eq_def ((a, v) :: m)]
      by_cases hc : c < a
      · simp only [if_pos hc]; exact read_below (by omega) hw'.2.2.2
      · simp only [if_neg hc, if_neg h6]
    · subst h6; simp [Memory.read]
    · subst h4; simp only [Memory.read, if_neg h6]
    · subst h5
      rw [Memory.read, if_neg (by omega), if_neg (by omega), ih hw'.2.2.2, if_pos rfl]
    · rw [Memory.read, Memory.read.eq_def ((k, v) :: m)]
      simp only [ih hw'.2.2.2, if_neg h5]

/-- Reading after a store: the stored byte at its address, the old byte everywhere else. -/
theorem read_write {m : Memory} (a c : Nat) (b : Byte) (hw : m.wf = true) (ha : a < Config.memSize) :
    (m.write a b).read c = if c = a then b else m.read c := by
  unfold Memory.write
  rw [if_pos ha]
  exact read_put a c b hw

/-- Reading after storing a run of bytes inside memory. -/
theorem read_writeBytes {m : Memory} (a c : Nat) (bs : List Byte) (hw : m.wf = true)
    (ha : a + bs.length ≤ Config.memSize) :
    (m.writeBytes a bs).read c = if h : a ≤ c ∧ c < a + bs.length then bs[c - a]'(by omega) else m.read c := by
  induction bs generalizing m a with
  | nil =>
    rw [Memory.writeBytes, dif_neg]
    simp only [List.length_nil]; omega
  | cons b bs ih =>
    simp only [List.length_cons] at ha
    rw [Memory.writeBytes, ih (a + 1) (write_wf a b hw) (by omega), read_write a c b hw (by omega)]
    simp only [List.length_cons]
    by_cases h1 : c = a
    · subst h1
      rw [dif_neg (by omega), if_pos rfl, dif_pos (by omega)]
      simp
    · by_cases h2 : a + 1 ≤ c ∧ c < a + 1 + bs.length
      · rw [dif_pos h2, dif_pos (by omega)]
        simp only [show c - a = (c - (a + 1)) + 1 by omega, List.getElem_cons_succ]
      · rw [dif_neg h2, if_neg h1, dif_neg (by omega)]

theorem readBytes_length (m : Memory) (a n : Nat) : (m.readBytes a n).length = n := by
  induction n generalizing a with
  | zero => rfl
  | succ n ih => simp [Memory.readBytes, ih]

theorem readBytes_getElem (m : Memory) (a n j : Nat) (h : j < (m.readBytes a n).length) :
    (m.readBytes a n)[j] = m.read (a + j) := by
  induction n generalizing a j with
  | zero => simp [Memory.readBytes] at h
  | succ n ih =>
    cases j with
    | zero => simp [Memory.readBytes]
    | succ j =>
      simp only [Memory.readBytes, List.getElem_cons_succ]
      rw [ih]; congr 1; omega

/-! ### The bounds check (rule R61) -/

theorem firstOutside_eq_none {a n : Nat} : firstOutside a n = none ↔ n = 0 ∨ a + n ≤ Config.memSize := by
  induction n generalizing a with
  | zero => simp [firstOutside]
  | succ n ih =>
    unfold firstOutside
    split
    · simp; omega
    · rw [ih]; omega

/-- What the bounds check answers, in closed form. -/
theorem firstOutside_eq (a n : Nat) :
    firstOutside a n = if n = 0 ∨ a + n ≤ Config.memSize then none else some (max a Config.memSize) := by
  induction n generalizing a with
  | zero => simp [firstOutside]
  | succ n ih =>
    unfold firstOutside
    by_cases h1 : Config.memSize ≤ a
    · rw [if_pos h1, if_neg (by omega), Nat.max_eq_left h1]
    · rw [if_neg h1, ih]
      by_cases h2 : a + (n + 1) ≤ Config.memSize
      · rw [if_pos (by omega), if_pos (by omega)]
      · rw [if_neg (by omega), if_neg (by omega)]
        congr 1; omega

/-- Everything `State.ifInside` can answer. -/
theorem ifInside_cases (s : State) (kind : AccessKind) (op : Option Word) (a n : Nat) (ok : State) :
    ((n = 0 ∨ a + n ≤ Config.memSize) ∧ s.ifInside kind op a n ok = ok) ∨
    (n ≠ 0 ∧ Config.memSize < a + n ∧
      s.ifInside kind op a n ok = s.raise .memoryOutOfBounds op (some ⟨kind, max a Config.memSize⟩)) := by
  unfold State.ifInside
  rw [firstOutside_eq]
  by_cases h : n = 0 ∨ a + n ≤ Config.memSize
  · rw [if_pos h]; exact .inl ⟨h, rfl⟩
  · rw [if_neg h]; exact .inr ⟨by omega, by omega, rfl⟩

end Sys2Proof.Machine
end

