-- ==== Sys2Proof/Laws/State.lean ====
section
/-! SUPPORT. One lemma per field and per state update, each true by rfl, and the laws of reading back a register or a key. -/

namespace Sys2Proof.Machine

/-! ### `State.setV` -/

@[simp] theorem setV_v (s : State) (x : RegIdx) (b : Byte) : (s.setV x b).v = s.v.set x.toNat b (x.isLt) := rfl
@[simp] theorem setV_pc (s : State) (x : RegIdx) (b : Byte) : (s.setV x b).pc = s.pc := rfl
@[simp] theorem setV_i (s : State) (x : RegIdx) (b : Byte) : (s.setV x b).i = s.i := rfl
@[simp] theorem setV_stack (s : State) (x : RegIdx) (b : Byte) : (s.setV x b).stack = s.stack := rfl
@[simp] theorem setV_sp (s : State) (x : RegIdx) (b : Byte) : (s.setV x b).sp = s.sp := rfl
@[simp] theorem setV_dt (s : State) (x : RegIdx) (b : Byte) : (s.setV x b).dt = s.dt := rfl
@[simp] theorem setV_st (s : State) (x : RegIdx) (b : Byte) : (s.setV x b).st = s.st := rfl
@[simp] theorem setV_fb (s : State) (x : RegIdx) (b : Byte) : (s.setV x b).fb = s.fb := rfl
@[simp] theorem setV_keys (s : State) (x : RegIdx) (b : Byte) : (s.setV x b).keys = s.keys := rfl
@[simp] theorem setV_mem (s : State) (x : RegIdx) (b : Byte) : (s.setV x b).mem = s.mem := rfl
@[simp] theorem setV_status (s : State) (x : RegIdx) (b : Byte) : (s.setV x b).status = s.status := rfl
@[simp] theorem setV_env (s : State) (x : RegIdx) (b : Byte) : (s.setV x b).env = s.env := rfl

/-! ### `State.setPc` -/

@[simp] theorem setPc_v (s : State) (a : Word) : (s.setPc a).v = s.v := rfl
@[simp] theorem setPc_pc (s : State) (a : Word) : (s.setPc a).pc = a := rfl
@[simp] theorem setPc_i (s : State) (a : Word) : (s.setPc a).i = s.i := rfl
@[simp] theorem setPc_stack (s : State) (a : Word) : (s.setPc a).stack = s.stack := rfl
@[simp] theorem setPc_sp (s : State) (a : Word) : (s.setPc a).sp = s.sp := rfl
@[simp] theorem setPc_dt (s : State) (a : Word) : (s.setPc a).dt = s.dt := rfl
@[simp] theorem setPc_st (s : State) (a : Word) : (s.setPc a).st = s.st := rfl
@[simp] theorem setPc_fb (s : State) (a : Word) : (s.setPc a).fb = s.fb := rfl
@[simp] theorem setPc_keys (s : State) (a : Word) : (s.setPc a).keys = s.keys := rfl
@[simp] theorem setPc_mem (s : State) (a : Word) : (s.setPc a).mem = s.mem := rfl
@[simp] theorem setPc_status (s : State) (a : Word) : (s.setPc a).status = s.status := rfl
@[simp] theorem setPc_env (s : State) (a : Word) : (s.setPc a).env = s.env := rfl
@[simp] theorem setPc_getV (s : State) (a : Word) (r : RegIdx) : (s.setPc a).getV r = s.getV r := rfl

/-! ### `State.setI` -/

@[simp] theorem setI_v (s : State) (a : Word) : (s.setI a).v = s.v := rfl
@[simp] theorem setI_pc (s : State) (a : Word) : (s.setI a).pc = s.pc := rfl
@[simp] theorem setI_i (s : State) (a : Word) : (s.setI a).i = a := rfl
@[simp] theorem setI_stack (s : State) (a : Word) : (s.setI a).stack = s.stack := rfl
@[simp] theorem setI_sp (s : State) (a : Word) : (s.setI a).sp = s.sp := rfl
@[simp] theorem setI_dt (s : State) (a : Word) : (s.setI a).dt = s.dt := rfl
@[simp] theorem setI_st (s : State) (a : Word) : (s.setI a).st = s.st := rfl
@[simp] theorem setI_fb (s : State) (a : Word) : (s.setI a).fb = s.fb := rfl
@[simp] theorem setI_keys (s : State) (a : Word) : (s.setI a).keys = s.keys := rfl
@[simp] theorem setI_mem (s : State) (a : Word) : (s.setI a).mem = s.mem := rfl
@[simp] theorem setI_status (s : State) (a : Word) : (s.setI a).status = s.status := rfl
@[simp] theorem setI_env (s : State) (a : Word) : (s.setI a).env = s.env := rfl
@[simp] theorem setI_getV (s : State) (a : Word) (r : RegIdx) : (s.setI a).getV r = s.getV r := rfl

/-! ### `State.setDt` -/

@[simp] theorem setDt_v (s : State) (b : Byte) : (s.setDt b).v = s.v := rfl
@[simp] theorem setDt_pc (s : State) (b : Byte) : (s.setDt b).pc = s.pc := rfl
@[simp] theorem setDt_i (s : State) (b : Byte) : (s.setDt b).i = s.i := rfl
@[simp] theorem setDt_stack (s : State) (b : Byte) : (s.setDt b).stack = s.stack := rfl
@[simp] theorem setDt_sp (s : State) (b : Byte) : (s.setDt b).sp = s.sp := rfl
@[simp] theorem setDt_dt (s : State) (b : Byte) : (s.setDt b).dt = b := rfl
@[simp] theorem setDt_st (s : State) (b : Byte) : (s.setDt b).st = s.st := rfl
@[simp] theorem setDt_fb (s : State) (b : Byte) : (s.setDt b).fb = s.fb := rfl
@[simp] theorem setDt_keys (s : State) (b : Byte) : (s.setDt b).keys = s.keys := rfl
@[simp] theorem setDt_mem (s : State) (b : Byte) : (s.setDt b).mem = s.mem := rfl
@[simp] theorem setDt_status (s : State) (b : Byte) : (s.setDt b).status = s.status := rfl
@[simp] theorem setDt_env (s : State) (b : Byte) : (s.setDt b).env = s.env := rfl
@[simp] theorem setDt_getV (s : State) (b : Byte) (r : RegIdx) : (s.setDt b).getV r = s.getV r := rfl

/-! ### `State.setSt` -/

@[simp] theorem setSt_v (s : State) (b : Byte) : (s.setSt b).v = s.v := rfl
@[simp] theorem setSt_pc (s : State) (b : Byte) : (s.setSt b).pc = s.pc := rfl
@[simp] theorem setSt_i (s : State) (b : Byte) : (s.setSt b).i = s.i := rfl
@[simp] theorem setSt_stack (s : State) (b : Byte) : (s.setSt b).stack = s.stack := rfl
@[simp] theorem setSt_sp (s : State) (b : Byte) : (s.setSt b).sp = s.sp := rfl
@[simp] theorem setSt_dt (s : State) (b : Byte) : (s.setSt b).dt = s.dt := rfl
@[simp] theorem setSt_st (s : State) (b : Byte) : (s.setSt b).st = b := rfl
@[simp] theorem setSt_fb (s : State) (b : Byte) : (s.setSt b).fb = s.fb := rfl
@[simp] theorem setSt_keys (s : State) (b : Byte) : (s.setSt b).keys = s.keys := rfl
@[simp] theorem setSt_mem (s : State) (b : Byte) : (s.setSt b).mem = s.mem := rfl
@[simp] theorem setSt_status (s : State) (b : Byte) : (s.setSt b).status = s.status := rfl
@[simp] theorem setSt_env (s : State) (b : Byte) : (s.setSt b).env = s.env := rfl
@[simp] theorem setSt_getV (s : State) (b : Byte) (r : RegIdx) : (s.setSt b).getV r = s.getV r := rfl

/-! ### `State.setFb` -/

@[simp] theorem setFb_v (s : State) (f : Framebuffer) : (s.setFb f).v = s.v := rfl
@[simp] theorem setFb_pc (s : State) (f : Framebuffer) : (s.setFb f).pc = s.pc := rfl
@[simp] theorem setFb_i (s : State) (f : Framebuffer) : (s.setFb f).i = s.i := rfl
@[simp] theorem setFb_stack (s : State) (f : Framebuffer) : (s.setFb f).stack = s.stack := rfl
@[simp] theorem setFb_sp (s : State) (f : Framebuffer) : (s.setFb f).sp = s.sp := rfl
@[simp] theorem setFb_dt (s : State) (f : Framebuffer) : (s.setFb f).dt = s.dt := rfl
@[simp] theorem setFb_st (s : State) (f : Framebuffer) : (s.setFb f).st = s.st := rfl
@[simp] theorem setFb_fb (s : State) (f : Framebuffer) : (s.setFb f).fb = f := rfl
@[simp] theorem setFb_keys (s : State) (f : Framebuffer) : (s.setFb f).keys = s.keys := rfl
@[simp] theorem setFb_mem (s : State) (f : Framebuffer) : (s.setFb f).mem = s.mem := rfl
@[simp] theorem setFb_status (s : State) (f : Framebuffer) : (s.setFb f).status = s.status := rfl
@[simp] theorem setFb_env (s : State) (f : Framebuffer) : (s.setFb f).env = s.env := rfl
@[simp] theorem setFb_getV (s : State) (f : Framebuffer) (r : RegIdx) : (s.setFb f).getV r = s.getV r := rfl

/-! ### `State.setMem` -/

@[simp] theorem setMem_v (s : State) (m : Memory) : (s.setMem m).v = s.v := rfl
@[simp] theorem setMem_pc (s : State) (m : Memory) : (s.setMem m).pc = s.pc := rfl
@[simp] theorem setMem_i (s : State) (m : Memory) : (s.setMem m).i = s.i := rfl
@[simp] theorem setMem_stack (s : State) (m : Memory) : (s.setMem m).stack = s.stack := rfl
@[simp] theorem setMem_sp (s : State) (m : Memory) : (s.setMem m).sp = s.sp := rfl
@[simp] theorem setMem_dt (s : State) (m : Memory) : (s.setMem m).dt = s.dt := rfl
@[simp] theorem setMem_st (s : State) (m : Memory) : (s.setMem m).st = s.st := rfl
@[simp] theorem setMem_fb (s : State) (m : Memory) : (s.setMem m).fb = s.fb := rfl
@[simp] theorem setMem_keys (s : State) (m : Memory) : (s.setMem m).keys = s.keys := rfl
@[simp] theorem setMem_mem (s : State) (m : Memory) : (s.setMem m).mem = m := rfl
@[simp] theorem setMem_status (s : State) (m : Memory) : (s.setMem m).status = s.status := rfl
@[simp] theorem setMem_env (s : State) (m : Memory) : (s.setMem m).env = s.env := rfl
@[simp] theorem setMem_getV (s : State) (m : Memory) (r : RegIdx) : (s.setMem m).getV r = s.getV r := rfl

/-! ### `State.setStatus` -/

@[simp] theorem setStatus_v (s : State) (q : Status) : (s.setStatus q).v = s.v := rfl
@[simp] theorem setStatus_pc (s : State) (q : Status) : (s.setStatus q).pc = s.pc := rfl
@[simp] theorem setStatus_i (s : State) (q : Status) : (s.setStatus q).i = s.i := rfl
@[simp] theorem setStatus_stack (s : State) (q : Status) : (s.setStatus q).stack = s.stack := rfl
@[simp] theorem setStatus_sp (s : State) (q : Status) : (s.setStatus q).sp = s.sp := rfl
@[simp] theorem setStatus_dt (s : State) (q : Status) : (s.setStatus q).dt = s.dt := rfl
@[simp] theorem setStatus_st (s : State) (q : Status) : (s.setStatus q).st = s.st := rfl
@[simp] theorem setStatus_fb (s : State) (q : Status) : (s.setStatus q).fb = s.fb := rfl
@[simp] theorem setStatus_keys (s : State) (q : Status) : (s.setStatus q).keys = s.keys := rfl
@[simp] theorem setStatus_mem (s : State) (q : Status) : (s.setStatus q).mem = s.mem := rfl
@[simp] theorem setStatus_status (s : State) (q : Status) : (s.setStatus q).status = q := rfl
@[simp] theorem setStatus_env (s : State) (q : Status) : (s.setStatus q).env = s.env := rfl
@[simp] theorem setStatus_getV (s : State) (q : Status) (r : RegIdx) : (s.setStatus q).getV r = s.getV r := rfl

/-! ### `State.setKey` -/

@[simp] theorem setKey_v (s : State) (k : Nibble) (b : Bool) : (s.setKey k b).v = s.v := rfl
@[simp] theorem setKey_pc (s : State) (k : Nibble) (b : Bool) : (s.setKey k b).pc = s.pc := rfl
@[simp] theorem setKey_i (s : State) (k : Nibble) (b : Bool) : (s.setKey k b).i = s.i := rfl
@[simp] theorem setKey_stack (s : State) (k : Nibble) (b : Bool) : (s.setKey k b).stack = s.stack := rfl
@[simp] theorem setKey_sp (s : State) (k : Nibble) (b : Bool) : (s.setKey k b).sp = s.sp := rfl
@[simp] theorem setKey_dt (s : State) (k : Nibble) (b : Bool) : (s.setKey k b).dt = s.dt := rfl
@[simp] theorem setKey_st (s : State) (k : Nibble) (b : Bool) : (s.setKey k b).st = s.st := rfl
@[simp] theorem setKey_fb (s : State) (k : Nibble) (b : Bool) : (s.setKey k b).fb = s.fb := rfl
@[simp] theorem setKey_keys (s : State) (k : Nibble) (b : Bool) : (s.setKey k b).keys = s.keys.set k.toNat b (k.isLt) := rfl
@[simp] theorem setKey_mem (s : State) (k : Nibble) (b : Bool) : (s.setKey k b).mem = s.mem := rfl
@[simp] theorem setKey_status (s : State) (k : Nibble) (b : Bool) : (s.setKey k b).status = s.status := rfl
@[simp] theorem setKey_env (s : State) (k : Nibble) (b : Bool) : (s.setKey k b).env = s.env := rfl
@[simp] theorem setKey_getV (s : State) (k : Nibble) (b : Bool) (r : RegIdx) : (s.setKey k b).getV r = s.getV r := rfl

/-! ### `State.setAgenda` -/

@[simp] theorem setAgenda_v (s : State) (l : List AgentStep) : (s.setAgenda l).v = s.v := rfl
@[simp] theorem setAgenda_pc (s : State) (l : List AgentStep) : (s.setAgenda l).pc = s.pc := rfl
@[simp] theorem setAgenda_i (s : State) (l : List AgentStep) : (s.setAgenda l).i = s.i := rfl
@[simp] theorem setAgenda_stack (s : State) (l : List AgentStep) : (s.setAgenda l).stack = s.stack := rfl
@[simp] theorem setAgenda_sp (s : State) (l : List AgentStep) : (s.setAgenda l).sp = s.sp := rfl
@[simp] theorem setAgenda_dt (s : State) (l : List AgentStep) : (s.setAgenda l).dt = s.dt := rfl
@[simp] theorem setAgenda_st (s : State) (l : List AgentStep) : (s.setAgenda l).st = s.st := rfl
@[simp] theorem setAgenda_fb (s : State) (l : List AgentStep) : (s.setAgenda l).fb = s.fb := rfl
@[simp] theorem setAgenda_keys (s : State) (l : List AgentStep) : (s.setAgenda l).keys = s.keys := rfl
@[simp] theorem setAgenda_mem (s : State) (l : List AgentStep) : (s.setAgenda l).mem = s.mem := rfl
@[simp] theorem setAgenda_status (s : State) (l : List AgentStep) : (s.setAgenda l).status = s.status := rfl
@[simp] theorem setAgenda_env (s : State) (l : List AgentStep) : (s.setAgenda l).env = { s.env with agenda := l } := rfl
@[simp] theorem setAgenda_getV (s : State) (l : List AgentStep) (r : RegIdx) : (s.setAgenda l).getV r = s.getV r := rfl

/-! ### `State.advance` -/

@[simp] theorem advance_v (s : State) : s.advance.v = s.v := rfl
@[simp] theorem advance_pc (s : State) : s.advance.pc = s.pc + 2 := rfl
@[simp] theorem advance_i (s : State) : s.advance.i = s.i := rfl
@[simp] theorem advance_stack (s : State) : s.advance.stack = s.stack := rfl
@[simp] theorem advance_sp (s : State) : s.advance.sp = s.sp := rfl
@[simp] theorem advance_dt (s : State) : s.advance.dt = s.dt := rfl
@[simp] theorem advance_st (s : State) : s.advance.st = s.st := rfl
@[simp] theorem advance_fb (s : State) : s.advance.fb = s.fb := rfl
@[simp] theorem advance_keys (s : State) : s.advance.keys = s.keys := rfl
@[simp] theorem advance_mem (s : State) : s.advance.mem = s.mem := rfl
@[simp] theorem advance_status (s : State) : s.advance.status = s.status := rfl
@[simp] theorem advance_env (s : State) : s.advance.env = s.env := rfl
@[simp] theorem advance_getV (s : State) (r : RegIdx) : s.advance.getV r = s.getV r := rfl

/-! ### `State.skipIf` -/

@[simp] theorem skipIf_v (s : State) (c : Bool) : (s.skipIf c).v = s.v := rfl
@[simp] theorem skipIf_pc (s : State) (c : Bool) : (s.skipIf c).pc = if c then s.pc + 4 else s.pc + 2 := rfl
@[simp] theorem skipIf_i (s : State) (c : Bool) : (s.skipIf c).i = s.i := rfl
@[simp] theorem skipIf_stack (s : State) (c : Bool) : (s.skipIf c).stack = s.stack := rfl
@[simp] theorem skipIf_sp (s : State) (c : Bool) : (s.skipIf c).sp = s.sp := rfl
@[simp] theorem skipIf_dt (s : State) (c : Bool) : (s.skipIf c).dt = s.dt := rfl
@[simp] theorem skipIf_st (s : State) (c : Bool) : (s.skipIf c).st = s.st := rfl
@[simp] theorem skipIf_fb (s : State) (c : Bool) : (s.skipIf c).fb = s.fb := rfl
@[simp] theorem skipIf_keys (s : State) (c : Bool) : (s.skipIf c).keys = s.keys := rfl
@[simp] theorem skipIf_mem (s : State) (c : Bool) : (s.skipIf c).mem = s.mem := rfl
@[simp] theorem skipIf_status (s : State) (c : Bool) : (s.skipIf c).status = s.status := rfl
@[simp] theorem skipIf_env (s : State) (c : Bool) : (s.skipIf c).env = s.env := rfl
@[simp] theorem skipIf_getV (s : State) (c : Bool) (r : RegIdx) : (s.skipIf c).getV r = s.getV r := rfl

/-! ### `State.raise` -/

@[simp] theorem raise_v (s : State) (c : Cause) (o : Option Word) (f : Option FaultInfo) : (s.raise c o f).v = s.v := rfl
@[simp] theorem raise_pc (s : State) (c : Cause) (o : Option Word) (f : Option FaultInfo) : (s.raise c o f).pc = s.pc := rfl
@[simp] theorem raise_i (s : State) (c : Cause) (o : Option Word) (f : Option FaultInfo) : (s.raise c o f).i = s.i := rfl
@[simp] theorem raise_stack (s : State) (c : Cause) (o : Option Word) (f : Option FaultInfo) : (s.raise c o f).stack = s.stack := rfl
@[simp] theorem raise_sp (s : State) (c : Cause) (o : Option Word) (f : Option FaultInfo) : (s.raise c o f).sp = s.sp := rfl
@[simp] theorem raise_dt (s : State) (c : Cause) (o : Option Word) (f : Option FaultInfo) : (s.raise c o f).dt = s.dt := rfl
@[simp] theorem raise_st (s : State) (c : Cause) (o : Option Word) (f : Option FaultInfo) : (s.raise c o f).st = s.st := rfl
@[simp] theorem raise_fb (s : State) (c : Cause) (o : Option Word) (f : Option FaultInfo) : (s.raise c o f).fb = s.fb := rfl
@[simp] theorem raise_keys (s : State) (c : Cause) (o : Option Word) (f : Option FaultInfo) : (s.raise c o f).keys = s.keys := rfl
@[simp] theorem raise_mem (s : State) (c : Cause) (o : Option Word) (f : Option FaultInfo) : (s.raise c o f).mem = s.mem := rfl
@[simp] theorem raise_status (s : State) (c : Cause) (o : Option Word) (f : Option FaultInfo) : (s.raise c o f).status = .faulted ⟨c, s.pc, o, f⟩ := rfl
@[simp] theorem raise_env (s : State) (c : Cause) (o : Option Word) (f : Option FaultInfo) : (s.raise c o f).env = s.env := rfl
@[simp] theorem raise_getV (s : State) (c : Cause) (o : Option Word) (f : Option FaultInfo) (r : RegIdx) : (s.raise c o f).getV r = s.getV r := rfl

/-! ### `State.result` -/

@[simp] theorem result_v (s : State) (x : RegIdx) (b : Byte) : (s.result x b).v = s.v.set x.toNat b (x.isLt) := rfl
@[simp] theorem result_pc (s : State) (x : RegIdx) (b : Byte) : (s.result x b).pc = s.pc + 2 := rfl
@[simp] theorem result_i (s : State) (x : RegIdx) (b : Byte) : (s.result x b).i = s.i := rfl
@[simp] theorem result_stack (s : State) (x : RegIdx) (b : Byte) : (s.result x b).stack = s.stack := rfl
@[simp] theorem result_sp (s : State) (x : RegIdx) (b : Byte) : (s.result x b).sp = s.sp := rfl
@[simp] theorem result_dt (s : State) (x : RegIdx) (b : Byte) : (s.result x b).dt = s.dt := rfl
@[simp] theorem result_st (s : State) (x : RegIdx) (b : Byte) : (s.result x b).st = s.st := rfl
@[simp] theorem result_fb (s : State) (x : RegIdx) (b : Byte) : (s.result x b).fb = s.fb := rfl
@[simp] theorem result_keys (s : State) (x : RegIdx) (b : Byte) : (s.result x b).keys = s.keys := rfl
@[simp] theorem result_mem (s : State) (x : RegIdx) (b : Byte) : (s.result x b).mem = s.mem := rfl
@[simp] theorem result_status (s : State) (x : RegIdx) (b : Byte) : (s.result x b).status = s.status := rfl
@[simp] theorem result_env (s : State) (x : RegIdx) (b : Byte) : (s.result x b).env = s.env := rfl

/-! ### `State.resultThenFlag` -/

@[simp] theorem resultThenFlag_v (s : State) (x : RegIdx) (b f : Byte) : (s.resultThenFlag x b f).v = (s.v.set x.toNat b (x.isLt)).set vf.toNat f (vf.isLt) := rfl
@[simp] theorem resultThenFlag_pc (s : State) (x : RegIdx) (b f : Byte) : (s.resultThenFlag x b f).pc = s.pc + 2 := rfl
@[simp] theorem resultThenFlag_i (s : State) (x : RegIdx) (b f : Byte) : (s.resultThenFlag x b f).i = s.i := rfl
@[simp] theorem resultThenFlag_stack (s : State) (x : RegIdx) (b f : Byte) : (s.resultThenFlag x b f).stack = s.stack := rfl
@[simp] theorem resultThenFlag_sp (s : State) (x : RegIdx) (b f : Byte) : (s.resultThenFlag x b f).sp = s.sp := rfl
@[simp] theorem resultThenFlag_dt (s : State) (x : RegIdx) (b f : Byte) : (s.resultThenFlag x b f).dt = s.dt := rfl
@[simp] theorem resultThenFlag_st (s : State) (x : RegIdx) (b f : Byte) : (s.resultThenFlag x b f).st = s.st := rfl
@[simp] theorem resultThenFlag_fb (s : State) (x : RegIdx) (b f : Byte) : (s.resultThenFlag x b f).fb = s.fb := rfl
@[simp] theorem resultThenFlag_keys (s : State) (x : RegIdx) (b f : Byte) : (s.resultThenFlag x b f).keys = s.keys := rfl
@[simp] theorem resultThenFlag_mem (s : State) (x : RegIdx) (b f : Byte) : (s.resultThenFlag x b f).mem = s.mem := rfl
@[simp] theorem resultThenFlag_status (s : State) (x : RegIdx) (b f : Byte) : (s.resultThenFlag x b f).status = s.status := rfl
@[simp] theorem resultThenFlag_env (s : State) (x : RegIdx) (b f : Byte) : (s.resultThenFlag x b f).env = s.env := rfl

/-! ### `State.tick` -/

@[simp] theorem tick_v (s : State) : s.tick.v = s.v := rfl
@[simp] theorem tick_pc (s : State) : s.tick.pc = s.pc := rfl
@[simp] theorem tick_i (s : State) : s.tick.i = s.i := rfl
@[simp] theorem tick_stack (s : State) : s.tick.stack = s.stack := rfl
@[simp] theorem tick_sp (s : State) : s.tick.sp = s.sp := rfl
@[simp] theorem tick_dt (s : State) : s.tick.dt = if s.dt = 0 then 0 else s.dt - 1 := rfl
@[simp] theorem tick_st (s : State) : s.tick.st = if s.st = 0 then 0 else s.st - 1 := rfl
@[simp] theorem tick_fb (s : State) : s.tick.fb = s.fb := rfl
@[simp] theorem tick_keys (s : State) : s.tick.keys = s.keys := rfl
@[simp] theorem tick_mem (s : State) : s.tick.mem = s.mem := rfl
@[simp] theorem tick_status (s : State) : s.tick.status = s.status := rfl
@[simp] theorem tick_env (s : State) : s.tick.env = s.env := rfl
@[simp] theorem tick_getV (s : State) (r : RegIdx) : s.tick.getV r = s.getV r := rfl

/-! ### Registers and keys read back -/

/-- Reading a register after writing one. -/
theorem getV_setV (s : State) (x r : RegIdx) (b : Byte) : (s.setV x b).getV r = if r = x then b else s.getV r := by
  simp only [State.getV, setV_v, Vector.getElem_set, BitVec.toNat_inj, eq_comm]

@[simp] theorem getV_setV_self (s : State) (x : RegIdx) (b : Byte) : (s.setV x b).getV x = b := by
  rw [getV_setV, if_pos rfl]

theorem getV_setV_of_ne (s : State) {x r : RegIdx} (b : Byte) (h : r ≠ x) : (s.setV x b).getV r = s.getV r := by
  rw [getV_setV, if_neg h]

/-- Reading a register after a result that sets no flag. -/
theorem getV_result (s : State) (x r : RegIdx) (b : Byte) : (s.result x b).getV r = if r = x then b else s.getV r :=
  getV_setV s x r b

/-- Reading a register after a result and a flag: the flag wins in VF (rule R143). -/
theorem getV_resultThenFlag (s : State) (x r : RegIdx) (b f : Byte) :
    (s.resultThenFlag x b f).getV r = if r = vf then f else if r = x then b else s.getV r := by
  rw [State.resultThenFlag, advance_getV, getV_setV, getV_setV]

/-- Reading a key after the host wrote one. -/
theorem getKey_setKey (s : State) (k j : Nibble) (b : Bool) : (s.setKey k b).getKey j = if j = k then b else s.getKey j := by
  simp only [State.getKey, setKey_keys, Vector.getElem_set, BitVec.toNat_inj, eq_comm]

end Sys2Proof.Machine
end

