-- ==== Sys2Proof/Laws/Ops.lean ====
section
/-! SUPPORT. What each shared operation over the stack, the random source, the policy and the bounds check can answer. -/

namespace Sys2Proof.Machine

/-- A push: below 16 entries it stores the address on top; at 16 there is no room (rule R24). -/
theorem push_cases (s : State) (a : Word) :
    (∃ (h : s.sp.val < 16) (h' : s.sp.val + 1 < 17),
      s.push a = some { s with stack := s.stack.set s.sp.val a h, sp := ⟨s.sp.val + 1, h'⟩ }) ∨
    (s.sp.val = 16 ∧ s.push a = none) := by
  unfold State.push
  by_cases h : s.sp.val < 16
  · exact .inl ⟨h, by omega, by rw [dif_pos h]⟩
  · have := s.sp.isLt
    exact .inr ⟨by omega, by rw [dif_neg h]⟩

/-- A pop: with an entry live it gives the top one; with none there is nothing (rule R24). -/
theorem pop_cases (s : State) :
    (∃ (h : s.sp.val - 1 < 16) (h' : s.sp.val - 1 < 17), 0 < s.sp.val ∧
      s.pop = some (s.stack[s.sp.val - 1], { s with sp := ⟨s.sp.val - 1, h'⟩ })) ∨
    (s.sp.val = 0 ∧ s.pop = none) := by
  unfold State.pop
  have := s.sp.isLt
  by_cases h : 0 < s.sp.val
  · exact .inl ⟨by omega, by omega, h, by rw [dif_pos h]⟩
  · exact .inr ⟨by omega, by rw [dif_neg h]⟩

/-- A draw: the next injected byte, or a free value (log entry 4). -/
theorem drawByte_cases (s : State) :
    (∃ r rest, s.env.injected = r :: rest ∧ s.drawByte = (r, { s with env := { s.env with injected := rest } })) ∨
    (s.env.injected = [] ∧
      s.drawByte = (Config.randomByte s.env.draws, { s with env := { s.env with draws := s.env.draws + 1 } })) := by
  unfold State.drawByte
  split
  · exact .inl ⟨_, _, ‹_›, rfl⟩
  · exact .inr ⟨‹_›, rfl⟩

/-- Executing an invalid word: fatal, or PC + 2, by the policy (rule R120). -/
theorem invalidOpcode_cases (s : State) (w : Word) :
    (s.env.params.invalidPolicy = .fatal ∧ s.invalidOpcode w = s.raise .invalidOpcode (some w) none) ∨
    (s.env.params.invalidPolicy = .noop ∧ s.invalidOpcode w = s.advance) := by
  unfold State.invalidOpcode
  split
  · exact .inl ⟨‹_›, rfl⟩
  · exact .inr ⟨‹_›, rfl⟩

/-- A fetch: the opcode at PC, or the lowest of its two addresses that lies outside memory (rules R61, R62). -/
theorem fetch_cases (s : State) :
    (s.pc.toNat + 1 < Config.memSize ∧
      s.fetch = .ok (wordOfBytes (s.mem.read s.pc.toNat) (s.mem.read (s.pc.toNat + 1)))) ∨
    (Config.memSize ≤ s.pc.toNat + 1 ∧ s.fetch = .error ⟨.fetch, max s.pc.toNat Config.memSize⟩) := by
  unfold State.fetch
  rw [firstOutside_eq]
  by_cases h : s.pc.toNat + 1 < Config.memSize
  · rw [if_pos (by omega)]; exact .inl ⟨h, rfl⟩
  · rw [if_neg (by omega)]; exact .inr ⟨by omega, rfl⟩

/-- Everything the engine step of a running core can be: the decoded instruction, or a fetch fault (rule R36). -/
theorem engineStep_cases (s : State) :
    (s.pc.toNat + 1 < Config.memSize ∧
      engineStep s = exec (decode (wordOfBytes (s.mem.read s.pc.toNat) (s.mem.read (s.pc.toNat + 1)))) s) ∨
    (Config.memSize ≤ s.pc.toNat + 1 ∧
      engineStep s = .next (s.raise .memoryOutOfBounds none (some ⟨.fetch, max s.pc.toNat Config.memSize⟩))) := by
  unfold engineStep
  rcases fetch_cases s with ⟨h, he⟩ | ⟨h, he⟩
  · rw [he]; exact .inl ⟨h, rfl⟩
  · rw [he]; exact .inr ⟨h, rfl⟩

end Sys2Proof.Machine
end

