-- ==== Sys2Proof/Laws/Exec.lean ====
section
/-! SUPPORT. Everything executing an instruction can answer: it completes, or raises the fatal condition rule R180 lists for it, or
suspends the core; and what one step of the machine is in each case of the schedule and the status. -/

namespace Sys2Proof.Machine

/-! ### The three ways an instruction ends -/

/-- Instruction `i` raises `c` in `s` with this `fault_info`, and `t` is the state after it (rules R180 to R184). -/
def Raised (i : Instr) (s t : State) (c : Cause) (info : Option FaultInfo) : Prop :=
  RaisesWhen s i c ∧ t = s.raise c (some (encode i)) info ∧ (c ≠ .memoryOutOfBounds → info = none)

/-- Instruction `i` ends without a fatal condition: it completes with the status as it was, or suspends the core. -/
def EndsWithoutFault (i : Instr) (s t : State) : Prop :=
  (∀ c, ¬RaisesWhen s i c) ∧ (t.status = s.status ∨ ∃ x, i = .waitForKeypressAndStore x ∧ t = s.setStatus (.waitKey x))

/-- The access a bounds check of an instruction is about: its kind and how many bytes from `I` on (rule R60). -/
def accessOf : Instr → Option (AccessKind × Nat)
  | .draw _ _ n => some (.spriteRead, n.toNat)
  | .storeBCD _ => some (.dataWrite, 3)
  | .storeRegisters x => some (.dataWrite, x.toNat + 1)
  | .loadRegisters x => some (.dataRead, x.toNat + 1)
  | .clearDisplay | .ret | .sys _ | .jump _ | .call _ | .skipEqualK _ _ | .skipNotEqualK _ _ | .skipEqual _ _
  | .storeK _ _ | .addK _ _ | .store _ _ | .or _ _ | .and _ _ | .xor _ _ | .add _ _ | .sub _ _ | .shiftRight _ _
  | .subReversed _ _ | .shiftLeft _ _ | .skipNotEqual _ _ | .storeI _ | .jumpOffset _ | .random _ _
  | .skipKeyPressed _ | .skipKeyNotPressed _ | .readDelayTimer _ | .waitForKeypressAndStore _ | .setDelayTimer _
  | .setSoundTimer _ | .addI _ | .glyphAddress _ | .invalid _ => none

/-- An instruction with no fatal condition of its own that keeps the status ends so. -/
theorem endsWithoutFault_of_status {i : Instr} {s t : State} (h : ∀ c, ¬RaisesWhen s i c) (ht : t.status = s.status) : EndsWithoutFault i s t :=
  ⟨h, .inl ht⟩

/-- The address a failed bounds check records is the lowest one outside memory. -/
theorem lowestOutside_max {a n : Nat} (h : Config.memSize < a + n) (h0 : n ≠ 0) : LowestOutside a n (max a Config.memSize) := by
  have : Config.memSize = 4096 := rfl
  exact ⟨by omega, by omega, by omega, fun b _ _ => by omega⟩

/-- Executing `Sys` or `Invalid` in `s`, `w` its word. -/
theorem invalidOpcode_ends {i : Instr} {s : State} (hi : (∃ nnn, i = .sys nnn) ∨ (∃ w, i = .invalid w)) :
    Raised i s (s.invalidOpcode (encode i)) .invalidOpcode none ∨ EndsWithoutFault i s (s.invalidOpcode (encode i)) := by
  rcases invalidOpcode_cases s (encode i) with ⟨h, e⟩ | ⟨h, e⟩
  · exact .inl ⟨.inr (.inr (.inr ⟨rfl, hi, h⟩)), e, fun _ => rfl⟩
  · refine .inr ⟨fun c hc => ?_, .inl (by rw [e]; rfl)⟩
    rcases hi with ⟨nnn, rfl⟩ | ⟨w, rfl⟩ <;> simp [RaisesWhen, h] at hc

/-- Every instruction answers a next state: one in which it ended without a fatal condition, or the FAULTED state of the condition
it raises, whose `fault_info` names the access and its lowest address outside memory (rules R180, R181, R186). -/
theorem exec_ends (i : Instr) (s : State) :
    ∃ t, exec i s = .next t ∧
      ((∃ c info, Raised i s t c info ∧
          (c = .memoryOutOfBounds → ∃ kind n a, accessOf i = some (kind, n) ∧ LowestOutside s.i.toNat n a ∧
            info = some ⟨kind, a⟩)) ∨ EndsWithoutFault i s t) := by
  have hM : Config.memSize = 4096 := rfl
  cases i with
  | ret =>
    refine ⟨_, rfl, ?_⟩
    rcases pop_cases s with ⟨h, h', h0, e⟩ | ⟨h0, e⟩
    · refine .inr ⟨fun c hc => ?_, .inl (by rw [e]; rfl)⟩
      simp [RaisesWhen] at hc; omega
    · exact .inl ⟨.stackUnderflow, none, ⟨.inr (.inl ⟨rfl, rfl, h0⟩), by rw [e], fun _ => rfl⟩, nofun⟩
  | call nnn =>
    refine ⟨_, rfl, ?_⟩
    rcases push_cases s s.next with ⟨h, h', e⟩ | ⟨h0, e⟩
    · refine .inr ⟨fun c hc => ?_, .inl (by rw [e]; rfl)⟩
      simp [RaisesWhen] at hc; omega
    · exact .inl ⟨.stackOverflow, none, ⟨.inl ⟨rfl, ⟨nnn, rfl⟩, h0⟩, by rw [e], fun _ => rfl⟩, nofun⟩
  | sys nnn =>
    refine ⟨_, rfl, ?_⟩
    rcases invalidOpcode_ends (i := .sys nnn) (s := s) (.inl ⟨nnn, rfl⟩) with h | h
    · exact .inl ⟨_, _, h, nofun⟩
    · exact .inr h
  | invalid w =>
    refine ⟨_, rfl, ?_⟩
    rcases invalidOpcode_ends (i := .invalid w) (s := s) (.inr ⟨w, rfl⟩) with h | h
    · exact .inl ⟨_, _, h, nofun⟩
    · exact .inr h
  | draw x y n =>
    refine ⟨_, rfl, ?_⟩
    rcases ifInside_cases s .spriteRead (some (encode (.draw x y n))) s.indexAddress n.toNat
      ((s.setFb (s.drawn x y n).fb).setV vf (flagByte (s.drawn x y n).collision)).advance with ⟨h, e⟩ | ⟨h0, h, e⟩
    · refine .inr ⟨fun c hc => ?_, .inl (by rw [e]; rfl)⟩
      simp [RaisesWhen] at hc; simp only [State.indexAddress] at h; omega
    · refine .inl ⟨_, _, ⟨.inr (.inr (.inl ⟨rfl, .inl ⟨x, y, n, rfl, ?_, ?_⟩⟩)), e, fun h => absurd rfl h⟩,
        fun _ => ⟨_, _, _, rfl, lowestOutside_max h h0, rfl⟩⟩
      · omega
      · simp only [State.indexAddress] at h; omega
  | storeBCD x =>
    refine ⟨_, rfl, ?_⟩
    rcases ifInside_cases s .dataWrite (some (encode (.storeBCD x))) s.indexAddress 3
      (s.setMem (s.mem.writeBytes s.indexAddress (bcdDigits (s.getV x)))).advance with ⟨h, e⟩ | ⟨h0, h, e⟩
    · refine .inr ⟨fun c hc => ?_, .inl (by rw [e]; rfl)⟩
      simp [RaisesWhen] at hc; simp only [State.indexAddress] at h; omega
    · refine .inl ⟨_, _, ⟨.inr (.inr (.inl ⟨rfl, .inr (.inl ⟨x, rfl, ?_⟩)⟩)), e, fun h => absurd rfl h⟩,
        fun _ => ⟨_, _, _, rfl, lowestOutside_max h h0, rfl⟩⟩
      simp only [State.indexAddress] at h; omega
  | storeRegisters x =>
    refine ⟨_, rfl, ?_⟩
    rcases ifInside_cases s .dataWrite (some (encode (.storeRegisters x))) s.indexAddress (blockCount x)
      ((s.setMem (s.mem.writeBytes s.indexAddress (s.registerBlock x))).setI (s.indexAfterBlock x)).advance
      with ⟨h, e⟩ | ⟨h0, h, e⟩
    · refine .inr ⟨fun c hc => ?_, .inl (by rw [e]; rfl)⟩
      simp [RaisesWhen] at hc; simp only [State.indexAddress, blockCount] at h; omega
    · refine .inl ⟨_, _, ⟨.inr (.inr (.inl ⟨rfl, .inr (.inr ⟨x, .inl rfl, ?_⟩)⟩)), e, fun h => absurd rfl h⟩,
        fun _ => ⟨_, _, _, rfl, lowestOutside_max h h0, rfl⟩⟩
      simp only [State.indexAddress, blockCount] at h; omega
  | loadRegisters x =>
    refine ⟨_, rfl, ?_⟩
    rcases ifInside_cases s .dataRead (some (encode (.loadRegisters x))) s.indexAddress (blockCount x)
      (({ s with v := s.loadedRegisters x } : State).setI (s.indexAfterBlock x)).advance with ⟨h, e⟩ | ⟨h0, h, e⟩
    · refine .inr ⟨fun c hc => ?_, .inl (by rw [e]; rfl)⟩
      simp [RaisesWhen] at hc; simp only [State.indexAddress, blockCount] at h; omega
    · refine .inl ⟨_, _, ⟨.inr (.inr (.inl ⟨rfl, .inr (.inr ⟨x, .inr rfl, ?_⟩)⟩)), e, fun h => absurd rfl h⟩,
        fun _ => ⟨_, _, _, rfl, lowestOutside_max h h0, rfl⟩⟩
      simp only [State.indexAddress, blockCount] at h; omega
  | random x kk =>
    refine ⟨_, rfl, .inr ⟨fun c hc => by simp [RaisesWhen] at hc, .inl ?_⟩⟩
    rcases drawByte_cases s with ⟨r, rest, _, e⟩ | ⟨_, e⟩ <;> rw [e] <;> rfl
  | waitForKeypressAndStore x => exact ⟨_, rfl, .inr ⟨fun c hc => by simp [RaisesWhen] at hc, .inr ⟨x, rfl, rfl⟩⟩⟩
  | clearDisplay => exact ⟨_, rfl, .inr (endsWithoutFault_of_status (fun c hc => by simp [RaisesWhen] at hc) rfl)⟩
  | jump => exact ⟨_, rfl, .inr (endsWithoutFault_of_status (fun c hc => by simp [RaisesWhen] at hc) rfl)⟩
  | skipEqualK => exact ⟨_, rfl, .inr (endsWithoutFault_of_status (fun c hc => by simp [RaisesWhen] at hc) rfl)⟩
  | skipNotEqualK => exact ⟨_, rfl, .inr (endsWithoutFault_of_status (fun c hc => by simp [RaisesWhen] at hc) rfl)⟩
  | skipEqual => exact ⟨_, rfl, .inr (endsWithoutFault_of_status (fun c hc => by simp [RaisesWhen] at hc) rfl)⟩
  | storeK => exact ⟨_, rfl, .inr (endsWithoutFault_of_status (fun c hc => by simp [RaisesWhen] at hc) rfl)⟩
  | addK => exact ⟨_, rfl, .inr (endsWithoutFault_of_status (fun c hc => by simp [RaisesWhen] at hc) rfl)⟩
  | store => exact ⟨_, rfl, .inr (endsWithoutFault_of_status (fun c hc => by simp [RaisesWhen] at hc) rfl)⟩
  | or => exact ⟨_, rfl, .inr (endsWithoutFault_of_status (fun c hc => by simp [RaisesWhen] at hc) rfl)⟩
  | and => exact ⟨_, rfl, .inr (endsWithoutFault_of_status (fun c hc => by simp [RaisesWhen] at hc) rfl)⟩
  | xor => exact ⟨_, rfl, .inr (endsWithoutFault_of_status (fun c hc => by simp [RaisesWhen] at hc) rfl)⟩
  | add => exact ⟨_, rfl, .inr (endsWithoutFault_of_status (fun c hc => by simp [RaisesWhen] at hc) rfl)⟩
  | sub => exact ⟨_, rfl, .inr (endsWithoutFault_of_status (fun c hc => by simp [RaisesWhen] at hc) rfl)⟩
  | shiftRight => exact ⟨_, rfl, .inr (endsWithoutFault_of_status (fun c hc => by simp [RaisesWhen] at hc) rfl)⟩
  | subReversed => exact ⟨_, rfl, .inr (endsWithoutFault_of_status (fun c hc => by simp [RaisesWhen] at hc) rfl)⟩
  | shiftLeft => exact ⟨_, rfl, .inr (endsWithoutFault_of_status (fun c hc => by simp [RaisesWhen] at hc) rfl)⟩
  | skipNotEqual => exact ⟨_, rfl, .inr (endsWithoutFault_of_status (fun c hc => by simp [RaisesWhen] at hc) rfl)⟩
  | storeI => exact ⟨_, rfl, .inr (endsWithoutFault_of_status (fun c hc => by simp [RaisesWhen] at hc) rfl)⟩
  | jumpOffset => exact ⟨_, rfl, .inr (endsWithoutFault_of_status (fun c hc => by simp [RaisesWhen] at hc) rfl)⟩
  | skipKeyPressed => exact ⟨_, rfl, .inr (endsWithoutFault_of_status (fun c hc => by simp [RaisesWhen] at hc) rfl)⟩
  | skipKeyNotPressed => exact ⟨_, rfl, .inr (endsWithoutFault_of_status (fun c hc => by simp [RaisesWhen] at hc) rfl)⟩
  | readDelayTimer => exact ⟨_, rfl, .inr (endsWithoutFault_of_status (fun c hc => by simp [RaisesWhen] at hc) rfl)⟩
  | setDelayTimer => exact ⟨_, rfl, .inr (endsWithoutFault_of_status (fun c hc => by simp [RaisesWhen] at hc) rfl)⟩
  | setSoundTimer => exact ⟨_, rfl, .inr (endsWithoutFault_of_status (fun c hc => by simp [RaisesWhen] at hc) rfl)⟩
  | addI => exact ⟨_, rfl, .inr (endsWithoutFault_of_status (fun c hc => by simp [RaisesWhen] at hc) rfl)⟩
  | glyphAddress => exact ⟨_, rfl, .inr (endsWithoutFault_of_status (fun c hc => by simp [RaisesWhen] at hc) rfl)⟩

end Sys2Proof.Machine
end

