-- ==== Sys2Proof/Laws/Step.lean ====
section
/-! SUPPORT. What one step of the machine is, by its schedule and status; words as the claims write them; flags; ticks. -/

namespace Sys2Proof.Machine

/-! ### Words and opcodes -/

/-- A number decodes to what the word of that number decodes to. -/
theorem decodesTo_of_word {n : Nat} {i : Instr} (w : Word) (h : w.toNat = n) (hd : decode w = i) : DecodesTo n i := by
  have hw := w.isLt
  have e : BitVec.ofNat 16 n = w := by apply BitVec.eq_of_toNat_eq; rw [BitVec.toNat_ofNat]; omega
  exact ⟨by omega, by rw [e, hd]⟩

/-- The canonical encoding from its number. -/
theorem encode_eq_ofNat {i : Instr} {n : Nat} (h : (encode i).toNat = n) : encode i = BitVec.ofNat 16 n := by
  rw [← h, BitVec.ofNat_toNat, BitVec.setWidth_eq]

theorem opcodeAt_lt (s : State) (a : Nat) : s.opcodeAt a < 65536 := by
  have h1 := (s.byteAt a).isLt
  have h2 := (s.byteAt (a + 1)).isLt
  unfold State.opcodeAt; omega

/-- The two bytes the fetch joins are the opcode the claims speak of (rule R62). -/
theorem wordOfBytes_read (s : State) (a : Nat) :
    wordOfBytes (s.mem.read a) (s.mem.read (a + 1)) = BitVec.ofNat 16 (s.opcodeAt a) := by
  apply BitVec.eq_of_toNat_eq
  have h := opcodeAt_lt s a
  rw [BitVec.toNat_ofNat, Nat.mod_eq_of_lt h, wordOfBytes_toNat, State.opcodeAt, State.byteAt, State.byteAt]; omega

/-! ### One step, by schedule and status (rules R34 to R36) -/

/-- A scheduled step is that agent's, with the schedule moved on. -/
theorem step_scheduled {s : State} {a : AgentStep} {rest : List AgentStep} (h : s.env.agenda = a :: rest) :
    step s = runAgent a (s.setAgenda rest) := by
  rw [step, nextStep, h]

/-- With nothing scheduled the engine moves. -/
theorem step_unscheduled {s : State} (h : s.env.agenda = []) : step s = runEngine s := by
  rw [step, nextStep, h]

/-- With nothing scheduled a running core takes an engine step. -/
theorem step_running {s : State} (h : s.env.agenda = []) (hr : s.status = .running) : step s = engineStep s := by
  rw [step_unscheduled h, runEngine, hr]

/-- A running core whose opcode lies inside memory executes it. -/
theorem step_executes {s : State} (h : s.env.agenda = []) (hr : s.status = .running) (hp : s.pc.toNat + 1 < 4096) :
    step s = exec (decode (BitVec.ofNat 16 (s.opcodeAt s.pc.toNat))) s := by
  rw [step_running h hr]
  rcases engineStep_cases s with ⟨_, e⟩ | ⟨h1, _⟩
  · rw [e, wordOfBytes_read]
  · exact absurd (show 4096 ≤ s.pc.toNat + 1 from h1) (by omega)

/-- Every step of the machine to a next state is a step of some agent, with the schedule moved on (rule R34). -/
theorem step_moves_some_agent {s t : State} (h : step s = .next t) :
    SomeAgentMoves (s.setAgenda s.env.agenda.tail) t := by
  cases ha : s.env.agenda with
  | cons a rest => exact ⟨a, (step_scheduled ha).symm.trans h⟩
  | nil =>
    have e : s.setAgenda [] = s := by unfold State.setAgenda; rw [← ha]
    rw [step_unscheduled ha] at h
    refine ⟨.engine, ?_⟩
    rw [List.tail_nil, e]
    unfold runEngine at h; unfold runAgent
    cases hs : s.status <;> simp only [hs] at h ⊢ <;> first | exact h | cases h

/-- Whether the program has ended depends on the status, PC and memory alone (log entry 16). -/
theorem ended_congr {s u : State} (hst : u.status = s.status) (hpc : u.pc = s.pc) (hm : u.mem = s.mem) : u.ended = s.ended := by
  simp only [State.ended, State.fetch, hst, hpc, hm]

/-- An instruction run by a running core raises, goes on running, or waits. -/
theorem exec_ends_of_running {i : Instr} {s t : State} (h : exec i s = .next t) (hr : s.status = .running) :
    (∃ c info, Raised i s t c info ∧
      (c = .memoryOutOfBounds → ∃ kind n a, accessOf i = some (kind, n) ∧ LowestOutside s.i.toNat n a ∧
        info = some ⟨kind, a⟩)) ∨
    ((∀ c, ¬RaisesWhen s i c) ∧
      (t.status = .running ∨ ∃ x, i = .waitForKeypressAndStore x ∧ t = s.setStatus (.waitKey x))) := by
  obtain ⟨t', e, h1⟩ := exec_ends i s
  rw [e] at h; cases h
  rcases h1 with h1 | ⟨h1, h2⟩
  · exact .inl h1
  · rw [hr] at h2; exact .inr ⟨h1, h2⟩

/-! ### Flags and timers -/

/-- A computed flag is 1 exactly if its condition holds. -/
theorem flagIs_flagByte {b : Bool} {c : Prop} (h : b = true ↔ c) : FlagIs (flagByte b) c := by
  refine ⟨fun hc => by rw [h.2 hc]; rfl, fun hc => ?_⟩
  cases b
  · rfl
  · exact absurd (h.1 rfl) hc

/-- A flag is 0 or 1. -/
theorem flagByte_cases (b : Bool) : flagByte b = 0 ∨ flagByte b = 1 := by cases b <;> simp [flagByte]

/-- One decrement that stops at 0 (rule R196). -/
theorem decremented_toNat (b : Byte) : (if b = 0 then 0 else b - 1).toNat = b.toNat - 1 := by revert b; decide

end Sys2Proof.Machine
end

