-- ==== Sys2Proof/Laws/Agents.lean ====
section
/-! SUPPORT. The agents and the schedule: no step reads the schedule, a run of the machine follows every interleaving for as
long as its schedule lasts, and fair interleavings exist. -/

namespace Sys2Proof.Machine

/-! ### No agent reads the schedule

The schedule says who moves, and nothing else: a step with another schedule does the same to everything but the schedule. -/

/-- A push reads no schedule. -/
theorem push_setAgenda (s : State) (l : List AgentStep) (a : Word) :
    (s.setAgenda l).push a = (s.push a).map (·.setAgenda l) := by
  unfold State.push; split <;> rename_i h <;> simp only [setAgenda_sp] at h
  · rw [dif_pos h]; rfl
  · rw [dif_neg h]; rfl

/-- A pop reads no schedule. -/
theorem pop_setAgenda (s : State) (l : List AgentStep) :
    (s.setAgenda l).pop = s.pop.map fun p => (p.1, p.2.setAgenda l) := by
  unfold State.pop; split <;> rename_i h <;> simp only [setAgenda_sp] at h
  · rw [dif_pos h]; rfl
  · rw [dif_neg h]; rfl

/-- A draw reads no schedule. -/
theorem drawByte_setAgenda (s : State) (l : List AgentStep) :
    (s.setAgenda l).drawByte = (s.drawByte.1, s.drawByte.2.setAgenda l) := by
  unfold State.drawByte; simp only [setAgenda_env]; split <;> rfl

/-- Executing an invalid word reads no schedule. -/
theorem invalidOpcode_setAgenda (s : State) (l : List AgentStep) (w : Word) :
    (s.setAgenda l).invalidOpcode w = (s.invalidOpcode w).setAgenda l := by
  unfold State.invalidOpcode; simp only [setAgenda_env]; split <;> rfl

/-- No instruction reads or writes the schedule. -/
theorem exec_setAgenda {i : Instr} {s t : State} (l : List AgentStep) (h : exec i s = .next t) :
    exec i (s.setAgenda l) = .next (t.setAgenda l) := by
  cases i <;> cases h <;> refine congrArg Host.Outcome.next ?_
  case ret => rw [pop_setAgenda]; cases s.pop <;> rfl
  case call => rw [show (s.setAgenda l).next = s.next from rfl, push_setAgenda]; cases s.push s.next <;> rfl
  case random => rw [drawByte_setAgenda]; rfl
  case sys | invalid => exact invalidOpcode_setAgenda _ _ _
  case draw | storeBCD | storeRegisters | loadRegisters =>
    unfold State.ifInside
    rw [show (s.setAgenda l).indexAddress = s.indexAddress from rfl]
    split <;> rfl
  all_goals rfl

/-- The engine step reads and writes no schedule. -/
theorem engineStep_setAgenda {s t : State} (l : List AgentStep) (h : engineStep s = .next t) :
    engineStep (s.setAgenda l) = .next (t.setAgenda l) := by
  unfold engineStep at h ⊢
  rw [show (s.setAgenda l).fetch = s.fetch from rfl]
  split at h
  · cases h; rfl
  · exact exec_setAgenda l h

/-- No step of any agent reads or writes the schedule. -/
theorem runAgent_setAgenda {a : AgentStep} {s t : State} (l : List AgentStep) (h : runAgent a s = .next t) :
    runAgent a (s.setAgenda l) = .next (t.setAgenda l) := by
  cases a <;> simp only [runAgent, setAgenda_status] at h ⊢
  case engine => split at h <;> first | exact engineStep_setAgenda l h | (cases h; rfl)
  case reset => split at h <;> cases h; rename_i hi; rw [if_pos hi]; rfl
  case keyDown k =>
    cases h; refine congrArg Host.Outcome.next ?_
    unfold State.keyDown State.completeWait
    rw [show (s.setAgenda l).getKey k = s.getKey k from rfl]
    simp only [setKey_status, setAgenda_status]
    split
    · rfl
    · split <;> rfl
  all_goals (cases h; rfl)

/-! ### The machine follows every interleaving for as long as its schedule lasts -/

/-- A run whose first step answers a next state goes on from there. -/
theorem run_of_step {s t : State} (h : step s = .next t) (n : Nat) : Sys2Proof.core.run (n + 1) s = Sys2Proof.core.run n t := by
  simp only [Host.Core.run, show Sys2Proof.core.step s = .next t from h]

/-- `n` steps of the machine with the agents of steps `m` to `m + n - 1` of an interleaving on the schedule go from `σ m` to
`σ (m + n)`, whatever `l` stands on the schedule behind them (rule R35, log entry 15). -/
theorem interleaving_run {agent : Nat → AgentStep} {σ : Nat → State} (h : Interleaving agent σ) (l : List AgentStep)
    (n m : Nat) :
    Sys2Proof.core.run n ((σ m).setAgenda ((List.range' m n).map agent ++ l)) = .next ((σ (m + n)).setAgenda l) := by
  induction n generalizing m with
  | zero => rfl
  | succ n ih =>
    have e : step ((σ m).setAgenda ((List.range' m (n + 1)).map agent ++ l)) =
        .next ((σ (m + 1)).setAgenda ((List.range' (m + 1) n).map agent ++ l)) :=
      (step_scheduled rfl).trans (runAgent_setAgenda (s := σ m) _ (h m))
    rw [run_of_step e, ih, Nat.add_assoc, Nat.add_comm 1 n]

/-! ### Fair interleavings exist -/

/-- The engine's turn always answers a next state: it executes, raises, or passes (rule R36, log entry 5). -/
theorem runAgent_engine_moves (s : State) : ∃ t, runAgent .engine s = .next t := by
  unfold runAgent
  cases s.status
  · rcases engineStep_cases s with ⟨_, e⟩ | ⟨_, e⟩
    · obtain ⟨t, h, _⟩ := exec_ends (decode (wordOfBytes (s.mem.read s.pc.toNat) (s.mem.read (s.pc.toNat + 1)))) s
      exact ⟨t, e.trans h⟩
    · exact ⟨_, e⟩
  all_goals exact ⟨_, rfl⟩

/-- From every state there is an interleaving in which the Timer Clock ticks again and again and the engine gets its turn again
and again: the one in which they alternate. So the fairness of rule R196 can be met in every state. -/
theorem exists_fair_interleaving (s : State) :
    ∃ agent σ, σ 0 = s ∧ Interleaving agent σ ∧ TimerClockFair agent ∧ KeepsComing .engine agent := by
  have moves : ∀ (n : Nat) (s : State), ∃ t, runAgent (if n % 2 = 0 then .engine else .tick) s = .next t := by
    intro n s; split
    · exact runAgent_engine_moves s
    · exact ⟨_, rfl⟩
  choose f hf using moves
  refine ⟨fun n => if n % 2 = 0 then .engine else .tick, fun n => Nat.rec s f n, rfl, fun n => hf n _,
    fun n => ⟨2 * n + 1, ?_⟩, fun n => ⟨2 * n, ?_⟩⟩
  · exact ⟨by omega, if_neg (by omega)⟩
  · exact ⟨by omega, if_pos (by omega)⟩

end Sys2Proof.Machine
end

