-- ==== Sys2Proof/Laws/Display.lean ====
section
/-! SUPPORT. Drawing as a list of pixels to toggle: a drawing is the toggling of its targets in turn, and toggling a list without
repeats flips exactly its pixels and collides exactly where one was set. -/

namespace Sys2Proof.Machine

/-- A pixel after one toggle. -/
theorem toggle_pixel (cv : Canvas) (yy : Fin 32) (xx : Fin 64) (r : Fin 32) (c : Fin 64) :
    (cv.toggle yy xx).fb[r][c] = if r = yy ∧ c = xx then !cv.fb[r][c] else cv.fb[r][c] := by
  unfold Canvas.toggle
  by_cases h1 : r = yy
  · subst h1
    by_cases h2 : c = xx
    · subst h2; simp
    · have h2' : ¬xx.val = c.val := fun e => h2 (Fin.ext e.symm)
      simp [h2, h2']
  · have h1' : ¬yy.val = r.val := fun e => h1 (Fin.ext e.symm)
    simp [h1, h1']

/-- Toggling the pixels of a list, in its order. -/
def Canvas.toggleAll (cv : Canvas) : List (Fin 32 × Fin 64) → Canvas
  | [] => cv
  | p :: ps => Canvas.toggleAll (cv.toggle p.1 p.2) ps

theorem toggleAll_append (cv : Canvas) (l m : List (Fin 32 × Fin 64)) :
    cv.toggleAll (l ++ m) = (cv.toggleAll l).toggleAll m := by
  induction l generalizing cv with
  | nil => rfl
  | cons p l ih => exact ih _

/-- Toggling a list without repeats flips exactly its pixels. -/
theorem toggleAll_pixel (cv : Canvas) (l : List (Fin 32 × Fin 64)) (hl : l.Nodup) (r : Fin 32) (c : Fin 64) :
    (cv.toggleAll l).fb[r][c] = if (r, c) ∈ l then !cv.fb[r][c] else cv.fb[r][c] := by
  induction l generalizing cv with
  | nil => rfl
  | cons p l ih =>
    obtain ⟨hp, hl⟩ := List.nodup_cons.1 hl
    rw [Canvas.toggleAll, ih _ hl, toggle_pixel]
    by_cases h : (r, c) = p
    · subst h
      rw [if_neg hp, if_pos ⟨rfl, rfl⟩, if_pos (by simp)]
    · have h' : ¬(r = p.1 ∧ c = p.2) := fun e => h (Prod.ext e.1 e.2)
      simp only [if_neg h', List.mem_cons, h, false_or]

/-- Toggling a list without repeats collides exactly if one of its pixels was set. -/
theorem toggleAll_collision (cv : Canvas) (l : List (Fin 32 × Fin 64)) (hl : l.Nodup) :
    (cv.toggleAll l).collision = true ↔ cv.collision = true ∨ ∃ p ∈ l, cv.fb[p.1][p.2] = true := by
  induction l generalizing cv with
  | nil => simp [Canvas.toggleAll]
  | cons p l ih =>
    obtain ⟨hp, hl⟩ := List.nodup_cons.1 hl
    rw [Canvas.toggleAll, ih _ hl]
    have hkeep : ∀ q ∈ l, (cv.toggle p.1 p.2).fb[q.1][q.2] = cv.fb[q.1][q.2] := by
      intro q hq
      rw [toggle_pixel, if_neg]
      rintro ⟨e1, e2⟩
      exact hp (Prod.ext e1 e2 ▸ hq)
    have hcol : (cv.toggle p.1 p.2).collision = (cv.collision || cv.fb[p.1][p.2]) := rfl
    rw [hcol, Bool.or_eq_true, or_assoc, List.exists_mem_cons_iff]
    refine or_congr_right (or_congr_right ⟨?_, ?_⟩)
    · rintro ⟨q, hq, h⟩; exact ⟨q, hq, (hkeep q hq) ▸ h⟩
    · rintro ⟨q, hq, h⟩; exact ⟨q, hq, (hkeep q hq).symm ▸ h⟩

/-- The pixels one sprite row toggles on framebuffer row `yy`. -/
def columnTargets (yy : Fin 32) (x0 : Nat) (row : Byte) (cs : List Nat) : List (Fin 32 × Fin 64) :=
  (cs.filter (spriteBit row)).map fun c => (yy, pixelColumn x0 c)

/-- The pixels sprite row `r` toggles: none where it is clipped. -/
def rowTargets (mode : DrawVertical) (x0 y0 r : Nat) (row : Byte) : List (Fin 32 × Fin 64) :=
  match pixelRow mode y0 r with
  | some yy => columnTargets yy x0 row [0, 1, 2, 3, 4, 5, 6, 7]
  | none => []

/-- The pixels the sprite rows from row `r` on toggle. -/
def spriteTargets (mode : DrawVertical) (x0 y0 : Nat) : Nat → List Byte → List (Fin 32 × Fin 64)
  | _, [] => []
  | r, row :: rows => rowTargets mode x0 y0 r row ++ spriteTargets mode x0 y0 (r + 1) rows

theorem drawColumns_eq (yy : Fin 32) (x0 : Nat) (row : Byte) (cs : List Nat) (cv : Canvas) :
    Canvas.drawColumns yy x0 row cs cv = cv.toggleAll (columnTargets yy x0 row cs) := by
  induction cs generalizing cv with
  | nil => rfl
  | cons c cs ih =>
    rw [Canvas.drawColumns, ih]
    by_cases h : spriteBit row c = true <;> simp [columnTargets, h, Canvas.toggleAll]

/-- A drawing is the toggling of its targets in turn. -/
theorem drawRows_eq (mode : DrawVertical) (x0 y0 r : Nat) (rows : List Byte) (cv : Canvas) :
    Canvas.drawRows mode x0 y0 r rows cv = cv.toggleAll (spriteTargets mode x0 y0 r rows) := by
  induction rows generalizing r cv with
  | nil => rfl
  | cons row rows ih =>
    rw [Canvas.drawRows, ih, spriteTargets, toggleAll_append]
    congr 1
    unfold Canvas.drawRow rowTargets
    cases pixelRow mode y0 r with
    | none => rfl
    | some yy => exact drawColumns_eq yy x0 row _ cv

/-! ### Which pixels the targets are -/

/-- The pixels one sprite row toggles: row by row and column by column of rule R162. -/
theorem mem_rowTargets {mode : DrawVertical} {x0 y0 r : Nat} {row : Byte} {yy : Fin 32} {xx : Fin 64} :
    (yy, xx) ∈ rowTargets mode x0 y0 r row ↔
      OnRow mode y0 r yy ∧ ∃ c, c < 8 ∧ spriteBit row c = true ∧ xx.val = (x0 + c) % 64 := by
  have key : ∀ y' : Fin 32, (yy, xx) ∈ columnTargets y' x0 row [0, 1, 2, 3, 4, 5, 6, 7] ↔
      yy = y' ∧ ∃ c, c < 8 ∧ spriteBit row c = true ∧ xx.val = (x0 + c) % 64 := by
    intro y'
    have hc : ∀ c, c ∈ [0, 1, 2, 3, 4, 5, 6, 7] ↔ c < 8 := by intro c; simp; omega
    simp only [columnTargets, List.mem_map, List.mem_filter, hc, Prod.mk.injEq, pixelColumn, Fin.ext_iff]
    constructor
    · rintro ⟨c, ⟨h1, h2⟩, h3, h4⟩; exact ⟨h3.symm, c, h1, h2, h4.symm⟩
    · rintro ⟨h3, c, h1, h2, h4⟩; exact ⟨c, ⟨h1, h2⟩, h3.symm, h4.symm⟩
  unfold rowTargets pixelRow OnRow
  by_cases h : y0 + r < 32
  · rw [dif_pos h]
    simp only [key, Fin.ext_iff]
    cases mode
    · simp only [Nat.mod_eq_of_lt h]
    · rfl
  · rw [dif_neg h]
    cases mode
    · simp only [key, Fin.ext_iff]
    · simp only [List.not_mem_nil, false_iff]
      have := yy.isLt
      rintro ⟨h1, -⟩; omega

/-- The pixels the sprite rows from row `r` on toggle. -/
theorem mem_spriteTargets {mode : DrawVertical} {x0 y0 r : Nat} {rows : List Byte} {yy : Fin 32} {xx : Fin 64} :
    (yy, xx) ∈ spriteTargets mode x0 y0 r rows ↔
      ∃ (j : Nat) (h : j < rows.length), OnRow mode y0 (r + j) yy ∧
        ∃ c, c < 8 ∧ spriteBit rows[j] c = true ∧ xx.val = (x0 + c) % 64 := by
  induction rows generalizing r with
  | nil => simp [spriteTargets]
  | cons row rows ih =>
    rw [spriteTargets, List.mem_append, mem_rowTargets, ih]
    constructor
    · rintro (h | ⟨j, hj, h⟩)
      · exact ⟨0, by simp, h⟩
      · refine ⟨j + 1, by simp; omega, ?_⟩
        rw [show r + (j + 1) = r + 1 + j by omega]; exact h
    · rintro ⟨j, hj, h⟩
      cases j with
      | zero => exact .inl h
      | succ j =>
        refine .inr ⟨j, by simpa using hj, ?_⟩
        rw [show r + (j + 1) = r + 1 + j by omega] at h; exact h

/-- One sprite row toggles no pixel twice. -/
theorem rowTargets_nodup {mode : DrawVertical} {x0 y0 r : Nat} {row : Byte} : (rowTargets mode x0 y0 r row).Nodup := by
  unfold rowTargets
  cases pixelRow mode y0 r with
  | none => exact List.nodup_nil
  | some yy =>
    apply List.Nodup.map_on
    · intro a ha b hb h
      simp only [Prod.mk.injEq, pixelColumn, Fin.mk.injEq, true_and] at h
      have h1 := (List.mem_filter.1 ha).1
      have h2 := (List.mem_filter.1 hb).1
      simp at h1 h2; omega
    · exact List.Nodup.filter _ (by decide)

/-- A sprite, of at most 15 rows, toggles no pixel twice: its rows land on different framebuffer rows. -/
theorem spriteTargets_nodup {mode : DrawVertical} {x0 y0 r : Nat} {rows : List Byte}
    (hr : r + rows.length ≤ 16) : (spriteTargets mode x0 y0 r rows).Nodup := by
  induction rows generalizing r with
  | nil => exact List.nodup_nil
  | cons row rows ih =>
    simp only [List.length_cons] at hr
    refine List.Nodup.append rowTargets_nodup (ih (by omega)) ?_
    rintro ⟨yy, xx⟩ h1 h2
    rw [mem_rowTargets] at h1
    rw [mem_spriteTargets] at h2
    obtain ⟨j, hj, h2, -⟩ := h2
    have h1 := h1.1
    unfold OnRow at h1 h2
    cases mode <;> simp only at h1 h2 <;> omega

/-- A sprite bit as a digit of its byte's number. -/
theorem spriteBit_iff (b : Byte) (c : Nat) : spriteBit b c = true ↔ b.toNat / 2 ^ (7 - c) % 2 = 1 := by
  simp [spriteBit, BitVec.getLsbD, Nat.testBit_eq_decide_div_mod_eq]

/-- The targets of `Draw Vx, Vy, n` are the pixels it covers. -/
theorem mem_targets_iff_covers (s : State) (x y : RegIdx) (n : Nibble) (yy : Fin 32) (xx : Fin 64) :
    (yy, xx) ∈ spriteTargets s.env.params.drawVertical (s.spriteColumn x) (s.spriteRow y) 0
      (s.mem.readBytes s.indexAddress n.toNat) ↔ s.CoversPixel x y n yy xx := by
  rw [mem_spriteTargets]
  unfold State.CoversPixel
  constructor
  · rintro ⟨j, hj, h1, c, h2, h3, h4⟩
    rw [readBytes_getElem, spriteBit_iff] at h3
    rw [readBytes_length] at hj
    rw [Nat.zero_add] at h1
    exact ⟨j, c, hj, h2, h1, h4, h3⟩
  · rintro ⟨j, c, hj, h2, h1, h4, h3⟩
    refine ⟨j, by rw [readBytes_length]; exact hj, by rw [Nat.zero_add]; exact h1, c, h2, ?_, h4⟩
    rw [readBytes_getElem, spriteBit_iff]; exact h3

end Sys2Proof.Machine
end

