-- ==== Sys2Proof/Laws/PerInstr.lean ====
section
/-! SUPPORT. Per-instruction family `Pattern`: the canonical encoding of an instruction carries the fixed bits of its row of the
opcode map (rules R83, R92), one lemma per constructor. -/

namespace Sys2Proof.Laws.Pattern

/-- The encoding matches every line of the map that has the instruction's row number. -/
def Statement (i : Instr) : Prop := ∀ l ∈ opcodeMap, l.row = i.row → encode i &&& l.mask = l.pattern

/-- A statement about the lines of row `r` is one equation about that row's line. -/
theorem of_line {i : Instr} (r : Nat) (p m : Word) (hr : i.row = r)
    (hu : ∀ l ∈ opcodeMap, l.row = r → l.pattern = p ∧ l.mask = m) (h : encode i &&& m = p) : Statement i := by
  intro l hl hl'
  obtain ⟨hp, hm⟩ := hu l hl (hl'.trans hr)
  rw [hp, hm, h]

theorem clearDisplay : Statement .clearDisplay :=
  of_line 1 0x00E0#16 0xFFFF#16 rfl (by decide) (by decide)

theorem ret : Statement .ret :=
  of_line 2 0x00EE#16 0xFFFF#16 rfl (by decide) (by decide)

theorem sys (nnn : Address) : Statement (.sys nnn) :=
  of_line 3 0x0000#16 0xF000#16 rfl (by decide) (by rw [and_mask_op]; simp [encode]; decide)

theorem jump (nnn : Address) : Statement (.jump nnn) :=
  of_line 4 0x1000#16 0xF000#16 rfl (by decide) (by rw [and_mask_op]; simp [encode]; decide)

theorem call (nnn : Address) : Statement (.call nnn) :=
  of_line 5 0x2000#16 0xF000#16 rfl (by decide) (by rw [and_mask_op]; simp [encode]; decide)

theorem skipEqualK (x : RegIdx) (kk : Byte) : Statement (.skipEqualK x kk) :=
  of_line 6 0x3000#16 0xF000#16 rfl (by decide) (by rw [and_mask_op]; simp [encode]; decide)

theorem skipNotEqualK (x : RegIdx) (kk : Byte) : Statement (.skipNotEqualK x kk) :=
  of_line 7 0x4000#16 0xF000#16 rfl (by decide) (by rw [and_mask_op]; simp [encode]; decide)

theorem skipEqual (x y : RegIdx) : Statement (.skipEqual x y) :=
  of_line 8 0x5000#16 0xF000#16 rfl (by decide) (by rw [and_mask_op]; simp [encode]; decide)

theorem storeK (x : RegIdx) (kk : Byte) : Statement (.storeK x kk) :=
  of_line 9 0x6000#16 0xF000#16 rfl (by decide) (by rw [and_mask_op]; simp [encode]; decide)

theorem addK (x : RegIdx) (kk : Byte) : Statement (.addK x kk) :=
  of_line 10 0x7000#16 0xF000#16 rfl (by decide) (by rw [and_mask_op]; simp [encode]; decide)

theorem store (x y : RegIdx) : Statement (.store x y) :=
  of_line 11 0x8000#16 0xF00F#16 rfl (by decide) (by rw [and_mask_op_n]; simp [encode]; decide)

theorem or (x y : RegIdx) : Statement (.or x y) :=
  of_line 12 0x8001#16 0xF00F#16 rfl (by decide) (by rw [and_mask_op_n]; simp [encode]; decide)

theorem and (x y : RegIdx) : Statement (.and x y) :=
  of_line 13 0x8002#16 0xF00F#16 rfl (by decide) (by rw [and_mask_op_n]; simp [encode]; decide)

theorem xor (x y : RegIdx) : Statement (.xor x y) :=
  of_line 14 0x8003#16 0xF00F#16 rfl (by decide) (by rw [and_mask_op_n]; simp [encode]; decide)

theorem add (x y : RegIdx) : Statement (.add x y) :=
  of_line 15 0x8004#16 0xF00F#16 rfl (by decide) (by rw [and_mask_op_n]; simp [encode]; decide)

theorem sub (x y : RegIdx) : Statement (.sub x y) :=
  of_line 16 0x8005#16 0xF00F#16 rfl (by decide) (by rw [and_mask_op_n]; simp [encode]; decide)

theorem shiftRight (x y : RegIdx) : Statement (.shiftRight x y) :=
  of_line 17 0x8006#16 0xF00F#16 rfl (by decide) (by rw [and_mask_op_n]; simp [encode]; decide)

theorem subReversed (x y : RegIdx) : Statement (.subReversed x y) :=
  of_line 18 0x8007#16 0xF00F#16 rfl (by decide) (by rw [and_mask_op_n]; simp [encode]; decide)

theorem shiftLeft (x y : RegIdx) : Statement (.shiftLeft x y) :=
  of_line 19 0x800E#16 0xF00F#16 rfl (by decide) (by rw [and_mask_op_n]; simp [encode]; decide)

theorem skipNotEqual (x y : RegIdx) : Statement (.skipNotEqual x y) :=
  of_line 20 0x9000#16 0xF000#16 rfl (by decide) (by rw [and_mask_op]; simp [encode]; decide)

theorem storeI (nnn : Address) : Statement (.storeI nnn) :=
  of_line 21 0xA000#16 0xF000#16 rfl (by decide) (by rw [and_mask_op]; simp [encode]; decide)

theorem jumpOffset (nnn : Address) : Statement (.jumpOffset nnn) :=
  of_line 22 0xB000#16 0xF000#16 rfl (by decide) (by rw [and_mask_op]; simp [encode]; decide)

theorem random (x : RegIdx) (kk : Byte) : Statement (.random x kk) :=
  of_line 23 0xC000#16 0xF000#16 rfl (by decide) (by rw [and_mask_op]; simp [encode]; decide)

theorem draw (x y : RegIdx) (n : Nibble) : Statement (.draw x y n) :=
  of_line 24 0xD000#16 0xF000#16 rfl (by decide) (by rw [and_mask_op]; simp [encode]; decide)

theorem skipKeyPressed (x : RegIdx) : Statement (.skipKeyPressed x) :=
  of_line 25 0xE09E#16 0xF0FF#16 rfl (by decide) (by rw [and_mask_op_kk]; simp [encode]; decide)

theorem skipKeyNotPressed (x : RegIdx) : Statement (.skipKeyNotPressed x) :=
  of_line 26 0xE0A1#16 0xF0FF#16 rfl (by decide) (by rw [and_mask_op_kk]; simp [encode]; decide)

theorem readDelayTimer (x : RegIdx) : Statement (.readDelayTimer x) :=
  of_line 27 0xF007#16 0xF0FF#16 rfl (by decide) (by rw [and_mask_op_kk]; simp [encode]; decide)

theorem waitForKeypressAndStore (x : RegIdx) : Statement (.waitForKeypressAndStore x) :=
  of_line 28 0xF00A#16 0xF0FF#16 rfl (by decide) (by rw [and_mask_op_kk]; simp [encode]; decide)

theorem setDelayTimer (x : RegIdx) : Statement (.setDelayTimer x) :=
  of_line 29 0xF015#16 0xF0FF#16 rfl (by decide) (by rw [and_mask_op_kk]; simp [encode]; decide)

theorem setSoundTimer (x : RegIdx) : Statement (.setSoundTimer x) :=
  of_line 30 0xF018#16 0xF0FF#16 rfl (by decide) (by rw [and_mask_op_kk]; simp [encode]; decide)

theorem addI (x : RegIdx) : Statement (.addI x) :=
  of_line 31 0xF01E#16 0xF0FF#16 rfl (by decide) (by rw [and_mask_op_kk]; simp [encode]; decide)

theorem glyphAddress (x : RegIdx) : Statement (.glyphAddress x) :=
  of_line 32 0xF029#16 0xF0FF#16 rfl (by decide) (by rw [and_mask_op_kk]; simp [encode]; decide)

theorem storeBCD (x : RegIdx) : Statement (.storeBCD x) :=
  of_line 33 0xF033#16 0xF0FF#16 rfl (by decide) (by rw [and_mask_op_kk]; simp [encode]; decide)

theorem storeRegisters (x : RegIdx) : Statement (.storeRegisters x) :=
  of_line 34 0xF055#16 0xF0FF#16 rfl (by decide) (by rw [and_mask_op_kk]; simp [encode]; decide)

theorem loadRegisters (x : RegIdx) : Statement (.loadRegisters x) :=
  of_line 35 0xF065#16 0xF0FF#16 rfl (by decide) (by rw [and_mask_op_kk]; simp [encode]; decide)

theorem invalid (w : Word) : Statement (.invalid w) :=
  of_line 36 0x0000#16 0x0000#16 rfl (by decide) (by simp [encode])

end Sys2Proof.Laws.Pattern
end

