-- ==== Sys2Proof/Tests/Slice0.lean ====
section
/-! SUPPORT. Tests of the model against the spec's worked vectors (95_test_vectors.md), each on one step of a small state; refusals of
ill-formed terms; and, for every statement with hypotheses, a state and operands that meet them. -/

namespace Sys2Proof.Tests

open Sys2Proof Sys2Proof.Machine

/-! ### Small states and one step -/

/-- The reset state under the parameters the vectors assume. -/
def base : State :=
  { State.reset with env := { params := ⟨.fatal, .vy, .wrap⟩, injected := [], draws := 0, agenda := [] } }

/-- `s` under other parameters. -/
def under (p : InvalidPolicy) (h : ShiftSource) (d : DrawVertical) (s : State) : State :=
  { s with env := { s.env with params := ⟨p, h, d⟩ } }

/-- `s` with these registers set. -/
def regs (s : State) : List (RegIdx × Byte) → State
  | [] => s
  | (x, b) :: l => regs (s.setV x b) l

/-- `s` with these bytes in memory from `a` on. -/
def bytes (s : State) (a : Nat) (l : List Byte) : State := s.setMem (s.mem.writeBytes a l)

/-- `s` with these agent steps to come. -/
def scheduled (s : State) (l : List AgentStep) : State := s.setAgenda l

/-- What an outcome says of the next state; false when there is none. -/
def endsIn (o : Host.Outcome State Fault Refusal) (p : State → Bool) : Bool :=
  match o with
  | .next t => p t
  | .fault _ => false
  | .refused _ => false

/-- The instruction the word of number `w` stands for, executed in `s`, ends in a state of which `p` holds. -/
def runs (s : State) (w : Nat) (p : State → Bool) : Bool := endsIn (exec (decode (BitVec.ofNat 16 w)) s) p

/-- The next state of an outcome; the state after reset when there is none. -/
def nextOf (o : Host.Outcome State Fault Refusal) : State :=
  match o with
  | .next t => t
  | .fault _ => State.reset
  | .refused _ => State.reset

/-- The status after a fatal condition at address `pc`. -/
def faultedAt (pc : Word) (c : Cause) (w : Option Word) (info : Option FaultInfo) : Status :=
  .faulted { cause := c, faultPc := pc, faultOpcode := w, faultInfo := info }

/-- A framebuffer row with exactly these columns set. -/
def rowWith (cols : List Nat) : Vector Bool 64 := Vector.ofFn fun c : Fin 64 => cols.contains c.val

/-! ### WellFormed refuses what no word stands for (rules R90, R92) -/

theorem test_wellFormed_refuses_sys_clear : (Instr.sys 0x0E0).wellFormed = false := by decide
theorem test_wellFormed_refuses_sys_return : (Instr.sys 0x0EE).wellFormed = false := by decide
theorem test_wellFormed_refuses_valid_word : (Instr.invalid 0x6A02).wellFormed = false := by decide
theorem test_wellFormed_refuses_family8 : (Instr.invalid 0x8AB4).wellFormed = false := by decide
theorem test_wellFormed_refuses_familyE : (Instr.invalid 0xE09E).wellFormed = false := by decide
theorem test_wellFormed_refuses_familyF : (Instr.invalid 0xF065).wellFormed = false := by decide
theorem test_wellFormed_takes_sys : (Instr.sys 0x0E1).wellFormed = true := by decide
theorem test_wellFormed_takes_invalid : (Instr.invalid 0x8AB8).wellFormed = true := by decide

/-! ### Decoding, one written-out word or more for every constructor (95_test_vectors.md 2.1) -/

theorem test_decode_family0 :
    decode 0x00E0 = .clearDisplay ∧ decode 0x00EE = .ret ∧ decode 0x00E1 = .sys 0x0E1 ∧ decode 0x01E0 = .sys 0x1E0 ∧
    decode 0x00FD = .sys 0x0FD ∧ decode 0x0000 = .sys 0x000 := by decide

theorem test_decode_jumps :
    decode 0x1FFF = .jump 0xFFF ∧ decode 0x2ABC = .call 0xABC ∧ decode 0xA123 = .storeI 0x123 ∧
    decode 0xB300 = .jumpOffset 0x300 := by decide

theorem test_decode_constants :
    decode 0x3A7F = .skipEqualK 0xA 0x7F ∧ decode 0x4F00 = .skipNotEqualK 0xF 0x00 ∧ decode 0x6A02 = .storeK 0xA 0x02 ∧
    decode 0x7EFF = .addK 0xE 0xFF ∧ decode 0xC30F = .random 0x3 0x0F := by decide

theorem test_decode_family8 :
    decode 0x8AB0 = .store 0xA 0xB ∧ decode 0x8AB1 = .or 0xA 0xB ∧ decode 0x8AB2 = .and 0xA 0xB ∧
    decode 0x8AB3 = .xor 0xA 0xB ∧ decode 0x8AB4 = .add 0xA 0xB ∧ decode 0x8AB5 = .sub 0xA 0xB ∧
    decode 0x8AB6 = .shiftRight 0xA 0xB ∧ decode 0x8AB7 = .subReversed 0xA 0xB ∧ decode 0x8ABE = .shiftLeft 0xA 0xB ∧
    decode 0x8AB8 = .invalid 0x8AB8 ∧ decode 0x8ABF = .invalid 0x8ABF := by decide

theorem test_decode_families_5_and_9 :
    decode 0x5AB0 = .skipEqual 0xA 0xB ∧ decode 0x5AB7 = .skipEqual 0xA 0xB ∧ decode 0x9AB0 = .skipNotEqual 0xA 0xB ∧
    decode 0x9AB1 = .skipNotEqual 0xA 0xB := by decide

theorem test_decode_draw_and_keys :
    decode 0xDAB0 = .draw 0xA 0xB 0x0 ∧ decode 0xD125 = .draw 0x1 0x2 0x5 ∧ decode 0xE09E = .skipKeyPressed 0x0 ∧
    decode 0xEFA1 = .skipKeyNotPressed 0xF ∧ decode 0xE09F = .invalid 0xE09F ∧ decode 0xE0A0 = .invalid 0xE0A0 := by decide

theorem test_decode_familyF :
    decode 0xF107 = .readDelayTimer 0x1 ∧ decode 0xF30A = .waitForKeypressAndStore 0x3 ∧ decode 0xF015 = .setDelayTimer 0x0 ∧
    decode 0xF518 = .setSoundTimer 0x5 ∧ decode 0xF21E = .addI 0x2 ∧ decode 0xF229 = .glyphAddress 0x2 ∧
    decode 0xF033 = .storeBCD 0x0 ∧ decode 0xFF55 = .storeRegisters 0xF ∧ decode 0xF465 = .loadRegisters 0x4 ∧
    decode 0xF066 = .invalid 0xF066 ∧ decode 0xF075 = .invalid 0xF075 := by decide

/-- The bytes of an opcode in memory, high byte first (rule R62), and a sequence too short to hold one. -/
theorem test_decode_bytes :
    decodeTableWord 16 0x6A02 = some (.storeK 0xA 0x02) ∧ bytesOfWord 0x6A02 = [0x6A, 0x02] ∧
    (decodeBytes [0x6A]).toOption = none := by decide

/-! ### Control flow (95_test_vectors.md 2.2) -/

theorem test_jump : runs base 0x1204 (fun t => t.pc == 0x204) = true := by decide

theorem test_call :
    runs { base with sp := 15, pc := 0x300 } 0x2400
      (fun t => t.pc == 0x400 && t.sp == 16 && t.stack[15] == 0x302) = true := by decide

theorem test_call_overflow :
    runs { base with sp := 16, pc := 0x300 } 0x2400
      (fun t => t.pc == 0x300 && t.sp == 16 && t.status == faultedAt 0x300 .stackOverflow (some 0x2400) none) = true := by decide

theorem test_return :
    runs { base with sp := 1, pc := 0x20E, stack := base.stack.set 0 0x206 } 0x00EE
      (fun t => t.pc == 0x206 && t.sp == 0) = true := by decide

theorem test_return_underflow :
    runs base 0x00EE (fun t => t.pc == 0x200 && t.status == faultedAt 0x200 .stackUnderflow (some 0x00EE) none) = true := by
  decide

theorem test_skipEqualK :
    (runs base 0x3000 (fun t => t.pc == 0x204) && runs (regs base [(0, 1)]) 0x3000 (fun t => t.pc == 0x202)) = true := by decide

theorem test_skipNotEqualK :
    (runs (regs base [(3, 0x10)]) 0x4311 (fun t => t.pc == 0x204) &&
     runs (regs base [(3, 0x10)]) 0x4310 (fun t => t.pc == 0x202)) = true := by decide

theorem test_skipEqual :
    (runs (regs base [(1, 7), (2, 7)]) 0x5120 (fun t => t.pc == 0x204) &&
     runs (regs base [(1, 7), (2, 8)]) 0x5120 (fun t => t.pc == 0x202)) = true := by decide

theorem test_skipNotEqual :
    (runs (regs base [(1, 7), (2, 8)]) 0x9120 (fun t => t.pc == 0x204) &&
     runs (regs base [(1, 7), (2, 7)]) 0x9120 (fun t => t.pc == 0x202)) = true := by decide

theorem test_jumpOffset : runs (regs base [(0, 0xFF)]) 0xBFFF (fun t => t.pc == 0x10FE) = true := by decide

theorem test_invalid_fatal :
    runs base 0x8AB9 (fun t => t.pc == 0x200 && t.status == faultedAt 0x200 .invalidOpcode (some 0x8AB9) none) = true := by decide

theorem test_invalid_noop :
    runs (under .noop .vy .wrap base) 0x8AB9 (fun t => t.pc == 0x202 && t.status == .running) = true := by decide

theorem test_sys_fatal :
    runs base 0x0000 (fun t => t.status == faultedAt 0x200 .invalidOpcode (some 0x0000) none) = true := by decide

theorem test_sys_noop :
    runs (under .noop .vy .wrap base) 0x0123 (fun t => t.pc == 0x202 && t.status == .running) = true := by decide

/-! ### Register loads and ALU (95_test_vectors.md 2.3) -/

theorem test_storeK : runs (regs base [(0xF, 1)]) 0x6F00 (fun t => t.getV 0xF == 0 && t.pc == 0x202) = true := by decide

theorem test_addK_wraps_without_carry :
    runs (regs base [(1, 0xFF)]) 0x7101 (fun t => t.getV 1 == 0x00 && t.getV 0xF == 0 && t.pc == 0x202) = true := by decide

theorem test_store : runs (regs base [(2, 0x5A)]) 0x8120 (fun t => t.getV 1 == 0x5A && t.pc == 0x202) = true := by decide

theorem test_or_keeps_vf :
    runs (regs base [(1, 0xF0), (2, 0x0F), (0xF, 1)]) 0x8121 (fun t => t.getV 1 == 0xFF && t.getV 0xF == 1) = true := by decide

theorem test_and : runs (regs base [(1, 0xF0), (2, 0x3C)]) 0x8122 (fun t => t.getV 1 == 0x30) = true := by decide

theorem test_xor : runs (regs base [(1, 0xF0), (2, 0x3C)]) 0x8123 (fun t => t.getV 1 == 0xCC) = true := by decide

/-- `V[1]` and `V[2]` before, then `V[1]` and VF after, of one instruction word. -/
def table (s : State) (w : Nat) (rows : List (Byte × Byte × Byte × Byte)) : Bool :=
  rows.all fun r => runs (regs s [(1, r.1), (2, r.2.1)]) w
    (fun t => t.getV 1 == r.2.2.1 && t.getV 0xF == r.2.2.2 && t.getV 2 == r.2.1)

theorem test_add :
    table base 0x8124 [(0x01, 0x02, 0x03, 0), (0xFF, 0x01, 0x00, 1), (0x80, 0x80, 0x00, 1), (0xC8, 0x64, 0x2C, 1)] = true := by
  decide

theorem test_sub :
    table base 0x8125 [(0x01, 0x02, 0xFF, 0), (0x07, 0x07, 0x00, 1), (0x00, 0xFF, 0x01, 0), (0xC8, 0x64, 0x64, 1)] = true := by
  decide

theorem test_subReversed :
    table base 0x8127 [(0x01, 0x02, 0x01, 1), (0x07, 0x07, 0x00, 1), (0xFF, 0x01, 0x02, 0), (0xC8, 0x64, 0x9C, 0)] = true := by
  decide

theorem test_shiftRight :
    (table base 0x8126 [(0x04, 0x03, 0x01, 1), (0x81, 0x7E, 0x3F, 0)] &&
     table (under .fatal .vx .wrap base) 0x8126 [(0x04, 0x03, 0x02, 0), (0x81, 0x7E, 0x40, 1)]) = true := by decide

theorem test_shiftLeft :
    (table base 0x812E [(0x81, 0x7E, 0xFC, 0), (0x40, 0x81, 0x02, 1)] &&
     table (under .fatal .vx .wrap base) 0x812E [(0x81, 0x7E, 0x02, 1), (0x40, 0x81, 0x80, 0)]) = true := by decide

/-- VF as the destination: the flag wins (rule R143 part b). -/
theorem test_flag_wins :
    ([(0x8F14, 0x01), (0x8F15, 0x01), (0x8F17, 0x00), (0x8F16, 0x01), (0x8F1E, 0x00)].all fun p =>
      runs (regs base [(0xF, 0xF0), (1, 0x21)]) p.1 (fun t => t.getV 0xF == p.2 && t.getV 1 == 0x21)) = true := by decide

/-- VF as the second operand is read before it is written (rule R143 part a). -/
theorem test_vf_as_source :
    ([(0x81F4, 0x0E, 0), (0x81F5, 0xFC, 0), (0x81F7, 0x04, 1), (0x81F6, 0x04, 1), (0x81FE, 0x12, 0)].all fun p =>
      runs (regs base [(1, 0x05), (0xF, 0x09)]) p.1 (fun t => t.getV 1 == p.2.1 && t.getV 0xF == p.2.2)) = true := by decide

theorem test_random_injected :
    runs { base with env := { base.env with injected := [0xA7, 0x55] } } 0xC30F
      (fun t => t.getV 3 == 0x07 && t.env.injected == [0x55] && t.env.draws == 0) = true := by decide

theorem test_random_free : runs base 0xC30F (fun t => t.env.draws == 1 && t.pc == 0x202) = true := by decide

/-! ### Index register and memory (95_test_vectors.md 2.4) -/

theorem test_storeI : runs { base with i := 0xFFFF } 0xAFFF (fun t => t.i == 0x0FFF && t.pc == 0x202) = true := by decide

theorem test_addI :
    (runs (regs { base with i := 0x0FFF } [(2, 1)]) 0xF21E (fun t => t.i == 0x1000 && t.getV 0xF == 0) &&
     runs (regs { base with i := 0xFFFF } [(2, 2)]) 0xF21E (fun t => t.i == 0x0001)) = true := by decide

theorem test_glyphAddress :
    (runs (regs base [(2, 0x0F)]) 0xF229 (fun t => t.i == 0x004B) &&
     runs (regs base [(2, 0xA7)]) 0xF229 (fun t => t.i == 0x0023)) = true := by decide

theorem test_storeBCD :
    runs (regs { base with i := 0x300 } [(0, 234)]) 0xF033
      (fun t => t.mem == [(0x300, 2), (0x301, 3), (0x302, 4)] && t.i == 0x300 && t.pc == 0x202) = true := by decide

theorem test_storeBCD_at_the_edge :
    (runs (regs { base with i := 0xFFD } [(0, 7)]) 0xF033 (fun t => t.mem == [(0xFFF, 7)]) &&
     runs (regs { base with i := 0xFFE } [(0, 7)]) 0xF033 (fun t => t.mem == [] &&
       t.status == faultedAt 0x200 .memoryOutOfBounds (some 0xF033) (some ⟨.dataWrite, 0x1000⟩))) = true := by decide

theorem test_storeRegisters :
    (runs (regs { base with i := 0x300 } [(0, 0x11), (1, 0x22), (2, 0x33)]) 0xF155
       (fun t => t.mem == [(0x300, 0x11), (0x301, 0x22)] && t.i == 0x302) &&
     runs (regs { base with i := 0xFFF } [(0, 0x5A)]) 0xF055 (fun t => t.mem == [(0xFFF, 0x5A)] && t.i == 0x1000)) = true := by
  decide

theorem test_storeRegisters_faults :
    runs (regs { base with i := 0xFFF } [(0, 0x5A)]) 0xF155 (fun t => t.mem == [] && t.i == 0xFFF &&
      t.status == faultedAt 0x200 .memoryOutOfBounds (some 0xF155) (some ⟨.dataWrite, 0x1000⟩)) = true := by decide

theorem test_loadRegisters :
    runs base 0xF465 (fun t => t.getV 0 == 0xF0 && t.getV 1 == 0x90 && t.getV 3 == 0x90 && t.getV 4 == 0xF0 &&
      t.getV 5 == 0 && t.i == 0x0005) = true := by decide

theorem test_loadRegisters_faults :
    runs { base with i := 0x1000 } 0xF065 (fun t => t.i == 0x1000 &&
      t.status == faultedAt 0x200 .memoryOutOfBounds (some 0xF065) (some ⟨.dataRead, 0x1000⟩)) = true := by decide


/-! ### Display (95_test_vectors.md 2.5) -/

theorem test_clearDisplay :
    runs { base with fb := base.fb.set 5 (rowWith [1, 2]) } 0x00E0 (fun t => t.fb[5] == rowWith [] && t.pc == 0x202) = true := by decide

theorem test_draw_wraps_in_the_row :
    runs (regs (bytes { base with i := 0x300 } 0x300 [0xFF]) [(1, 60), (2, 5)]) 0xD121
      (fun t => t.fb[5] == rowWith [60, 61, 62, 63, 0, 1, 2, 3] && t.fb[6] == rowWith [] && t.getV 0xF == 0) = true := by decide

/-- The same sprite under both values of DRAW_VERTICAL. -/
theorem test_draw_below_the_edge :
    (runs (regs (bytes { base with i := 0x300 } 0x300 [0xC0, 0xC0, 0xC0]) [(1, 10), (2, 30)]) 0xD123
       (fun t => t.fb[31] == rowWith [10, 11] && t.fb[0] == rowWith [10, 11]) &&
     runs (regs (bytes { under .fatal .vy .clip base with i := 0x300 } 0x300 [0xC0, 0xC0, 0xC0]) [(1, 10), (2, 30)]) 0xD123
       (fun t => t.fb[31] == rowWith [10, 11] && t.fb[0] == rowWith [])) = true := by decide

theorem test_draw_collision :
    runs (bytes { base with i := 0x300, fb := base.fb.set 0 (rowWith [0, 2, 4, 6]) } 0x300 [0xFF]) 0xD121
      (fun t => t.fb[0] == rowWith [1, 3, 5, 7] && t.getV 0xF == 1) = true := by decide

theorem test_draw_height_zero :
    runs (regs { base with i := 0xFFFF } [(0xF, 1)]) 0xD120
      (fun t => t.fb[0] == rowWith [] && t.getV 0xF == 0 && t.status == .running) = true := by decide

theorem test_draw_faults :
    runs { base with i := 0xFFE } 0xD123 (fun t => t.pc == 0x200 &&
      t.status == faultedAt 0x200 .memoryOutOfBounds (some 0xD123) (some ⟨.spriteRead, 0x1000⟩)) = true := by decide

/-- The coordinates are read before VF is written. -/
theorem test_draw_at_vf :
    runs (regs (bytes { base with i := 0x300 } 0x300 [0x80]) [(0xF, 3)]) 0xDFF1
      (fun t => t.fb[3] == rowWith [3] && t.getV 0xF == 0) = true := by decide

/-! ### Keys and timers (95_test_vectors.md 2.6, 2.7) -/

/-- `base` with key `k` held. -/
def holding (k : Nibble) : State := base.setKey k true

theorem test_skipKeyPressed :
    (runs (regs (holding 0xA) [(4, 0x3A)]) 0xE49E (fun t => t.pc == 0x204) &&
     runs (regs base [(4, 0x0A)]) 0xE49E (fun t => t.pc == 0x202)) = true := by decide

theorem test_skipKeyNotPressed :
    (runs (regs base [(4, 0x0A)]) 0xE4A1 (fun t => t.pc == 0x204) &&
     runs (regs (holding 0xA) [(4, 0x0A)]) 0xE4A1 (fun t => t.pc == 0x202)) = true := by decide

theorem test_wait_suspends :
    runs (holding 5) 0xF30A (fun t => t.status == .waitKey 3 && t.pc == 0x200 && t.getV 3 == 0) = true := by decide

/-- The core of the vectors of 2.6: waiting for a key for V3, key 5 held. -/
def waiting : State := (bytes (holding 5) 0x200 [0xF3, 0x0A]).setStatus (.waitKey 3)

/-- One scheduled step of `s`. -/
def stepOf (s : State) (a : AgentStep) : Host.Outcome State Fault Refusal := step (scheduled s [a])

theorem test_wait_key_press :
    endsIn (stepOf waiting (.keyDown 0xB)) (fun t => t.getKey 0xB && t.getV 3 == 0x0B && t.pc == 0x202 && t.status == .running)
      = true := by decide

theorem test_wait_held_key_is_no_event :
    endsIn (stepOf waiting (.keyDown 5)) (fun t => t.getKey 5 && t.status == .waitKey 3 && t.pc == 0x200 && t.getV 3 == 0)
      = true := by decide

theorem test_wait_key_release :
    endsIn (stepOf waiting (.keyUp 5)) (fun t => !t.getKey 5 && t.status == .waitKey 3) = true := by decide

theorem test_readDelayTimer : runs { base with dt := 7 } 0xF107 (fun t => t.getV 1 == 7 && t.dt == 7) = true := by decide

theorem test_setDelayTimer : runs (regs base [(0, 0x0A)]) 0xF015 (fun t => t.dt == 0x0A && t.pc == 0x202) = true := by decide

theorem test_setSoundTimer : runs (regs base [(5, 3)]) 0xF518 (fun t => t.st == 3 && t.toneOn) = true := by decide

theorem test_tick :
    (endsIn (stepOf { base with dt := 1, st := 3 } .tick) (fun t => t.dt == 0 && t.st == 2) &&
     endsIn (stepOf { base with dt := 0, st := 0 } .tick) (fun t => t.dt == 0 && t.st == 0)) = true := by decide

theorem test_tick_ends_tone :
    endsIn (stepOf { base with st := 1 } .tick) (fun t => t.st == 0 && !t.toneOn) = true := by decide

/-! ### Reset, the engine step and the diagnostic (95_test_vectors.md 2.2, 2.8; rules R181, R182) -/

theorem test_reset :
    endsIn (stepOf waiting (.reset [0x60, 0x05])) (fun t => t.mem == [(0x200, 0x60), (0x201, 0x05)] && t.getV 3 == 0 &&
      t.pc == 0x200 && t.status == .running && t.keys == base.keys) = true := by decide

theorem test_reset_memory :
    (State.reset.byteAt 0x000 == 0xF0 && State.reset.byteAt 0x005 == 0x20 && State.reset.byteAt 0x04F == 0x80 &&
     State.reset.byteAt 0x050 == 0 && State.reset.byteAt 0x200 == 0) = true := by decide

theorem test_step_fetches_and_runs :
    endsIn (step (base.withFetchWord 16 0x6A02)) (fun t => t.getV 0xA == 0x02 && t.pc == 0x202) = true := by decide

theorem test_step_fetch_fault :
    (endsIn (step { base with pc := 0xFFF })
       (fun t => t.status == faultedAt 0xFFF .memoryOutOfBounds none (some ⟨.fetch, 0x1000⟩)) &&
     endsIn (step { base with pc := 0x10FE })
       (fun t => t.status == faultedAt 0x10FE .memoryOutOfBounds none (some ⟨.fetch, 0x10FE⟩))) = true := by decide

theorem test_cause_codes :
    [Cause.stackOverflow, .stackUnderflow, .memoryOutOfBounds, .invalidOpcode].map Cause.code = [1, 2, 3, 4] := by decide


/-! ### Witnesses: states and operands that meet the hypotheses of the statements, at the boundaries of each clause -/

/-- These bytes at 0x200, where PC is. -/
def program (l : List Byte) : State := bytes base 0x200 l

theorem witness_DecodeOfEncodeIsIdentity :
    (Instr.sys 0x0ED).wellFormed = true ∧ (Instr.invalid 0xFFFF).wellFormed = true ∧ (Instr.draw 0xF 0xF 0xF).wellFormed = true := by
  decide

theorem witness_InvalidExactlyOnInvalidSet : decode 0xF066 = .invalid 0xF066 ∧ decode 0x8008 = .invalid 0x8008 := by decide

theorem witness_DecoderAgreesWithPriorityTable :
    (⟨1, 0x00E0, 0xFFFF⟩ : OpcodeLine) ∈ opcodeMap ∧ (⟨3, 0x0000, 0xF000⟩ : OpcodeLine) ∈ opcodeMap ∧ 1 < 3 ∧
    (⟨36, 0x0000, 0x0000⟩ : OpcodeLine) ∈ opcodeMap ∧ 0x00E0#16 &&& 0xFFFF#16 = 0x00E0#16 ∧ 0x00E0#16 &&& 0xF000#16 = 0x0000#16 ∧ invalidWord 0x8AB8 = true ∧
    invalidWord 0x8AB7 = false := by decide

theorem witness_ArithmeticStoresResultAndFlag : (0x0 : RegIdx) ≠ vf ∧ (0xE : RegIdx) ≠ vf := by decide

theorem witness_ShiftsMoveOneBitOfTheSource_vy :
    (0x1 : RegIdx) ≠ vf ∧ base.env.params.shiftSource = .vy ∧ (0 : Byte) = base.getV 0x2 := by decide

theorem witness_ShiftsMoveOneBitOfTheSource_vx :
    (0x1 : RegIdx) ≠ vf ∧ (under .fatal .vx .wrap base).env.params.shiftSource = .vx ∧
    (0x81 : Byte) = (regs (under .fatal .vx .wrap base) [(1, 0x81)]).getV 0x1 := by decide

theorem witness_FlagWinsWhenVfIsDestination :
    (base.env.params.shiftSource = .vy → (0x21 : Byte) = (regs base [(1, 0x21)]).getV 0x1) ∧
    (base.env.params.shiftSource = .vx → (0x21 : Byte) = (regs base [(1, 0x21)]).getV vf) := by decide

theorem witness_RandomMasksOneDraw :
    base.env.injected = [] ∧ ({ base with env := { base.env with injected := [0xA7] } } : State).env.injected = 0xA7 :: [] := by
  decide

theorem witness_CallPushesOrOverflows :
    base.sp.val < 16 ∧ ({ base with sp := 15 } : State).sp.val < 16 ∧ ({ base with sp := 16 } : State).sp.val = 16 := by decide

theorem witness_ReturnPopsOrUnderflows :
    0 < ({ base with sp := 1 } : State).sp.val ∧ 0 < ({ base with sp := 16 } : State).sp.val ∧ base.sp.val = 0 := by decide

/-- A Call of 0x300 at 0x200 and a Return at 0x300, with one stack entry still free. -/
def calling : State := bytes { program [0x23, 0x00] with sp := 15 } 0x300 [0x00, 0xEE]

theorem witness_CallThenReturnComesBack :
    calling.status = .running ∧ calling.env.agenda = [] ∧ calling.sp.val < 16 ∧ calling.pc.toNat + 1 < 4096 ∧
    calling.opcodeAt calling.pc.toNat = 0x2000 + (0x300 : Address).toNat ∧ (0x300 : Address).toNat + 1 < 4096 ∧
    calling.opcodeAt (0x300 : Address).toNat = 0x00EE := by decide

theorem witness_InvalidFollowsPolicy :
    invalidWord 0xF066 = true ∧ base.env.params.invalidPolicy = .fatal ∧ (under .noop .vy .wrap base).env.params.invalidPolicy = .noop := by decide

theorem witness_SysFollowsPolicy :
    (0x0E1 : Address).toNat ≠ 0x0E0 ∧ (0x0E1 : Address).toNat ≠ 0x0EE ∧ base.env.params.invalidPolicy = .fatal ∧
    (under .noop .vy .wrap base).env.params.invalidPolicy = .noop := by decide

/-- `base` with this value in I. -/
def indexed (a : Word) : State := { base with i := a }

/-- StoreBCD at the last place inside memory and at the first that is not. -/
theorem witness_StoreBCDWritesThreeDigits :
    (indexed 0xFFD).MemInv ∧ (indexed 0xFFD).i.toNat + 2 < 4096 ∧ (indexed 0xFFE).MemInv ∧
    (indexed 0xFFE).i.toNat + 2 ≥ 4096 := ⟨rfl, by decide, rfl, by decide⟩

/-- Sixteen registers at the last place inside memory and at the first that is not, and one register likewise. -/
theorem witness_StoreRegistersFillsMemory :
    (indexed 0xFF0).MemInv ∧ (indexed 0xFF0).i.toNat + (0xF : RegIdx).toNat < 4096 ∧
    (indexed 0xFF1).MemInv ∧ (indexed 0xFF1).i.toNat + (0xF : RegIdx).toNat ≥ 4096 ∧
    (indexed 0xFFF).MemInv ∧ (indexed 0xFFF).i.toNat + (0x0 : RegIdx).toNat < 4096 :=
  ⟨rfl, by decide, rfl, by decide, rfl, by decide⟩

theorem witness_LoadRegistersReadsMemory :
    (indexed 0xFFF).i.toNat + (0x0 : RegIdx).toNat < 4096 ∧ (indexed 0x1000).i.toNat + (0x0 : RegIdx).toNat ≥ 4096 := by decide

theorem witness_StoredBlockLoadsBack :
    (indexed 0xFF0).MemInv ∧ (indexed 0xFF0).i.toNat + (0xF : RegIdx).toNat < 4096 := ⟨rfl, by decide⟩

/-- A StoreRegisters V0 at `pc`, with `a` in I. -/
def patching (pc a : Word) : State := bytes { base with pc := pc, i := a } pc.toNat [0xF0, 0x55]

/-- The patching store at the last PC the statement allows, with I at the first byte of the next instruction. -/
theorem witness_NextFetchSeesTheStore_high :
    (patching 0xFFC 0xFFE).MemInv ∧ (patching 0xFFC 0xFFE).status = .running ∧ (patching 0xFFC 0xFFE).env.agenda = [] ∧
    (patching 0xFFC 0xFFE).pc.toNat + 3 < 4096 ∧ (patching 0xFFC 0xFFE).opcodeAt (patching 0xFFC 0xFFE).pc.toNat = 0xF055 ∧
    (patching 0xFFC 0xFFE).i.toNat = (patching 0xFFC 0xFFE).pc.toNat + 2 :=
  ⟨rfl, rfl, rfl, by decide, by decide, by decide⟩

/-- The same with I at the second byte of the next instruction. -/
theorem witness_NextFetchSeesTheStore_low :
    (patching 0x200 0x203).MemInv ∧ (patching 0x200 0x203).status = .running ∧ (patching 0x200 0x203).env.agenda = [] ∧
    (patching 0x200 0x203).pc.toNat + 3 < 4096 ∧ (patching 0x200 0x203).opcodeAt (patching 0x200 0x203).pc.toNat = 0xF055 ∧
    (patching 0x200 0x203).i.toNat = (patching 0x200 0x203).pc.toNat + 3 :=
  ⟨rfl, rfl, rfl, by decide, by decide, by decide⟩

/-- Draw with no row, with its last row at the top of memory, and with a row beyond it. -/
theorem witness_DrawXorsTheSprite :
    (0x0 : Nibble).toNat = 0 ∧ (indexed 0xFF1).i.toNat + (0xF : Nibble).toNat - 1 < 4096 := by decide

/-- A pixel that is covered: the top left one of glyph 0 drawn at row 5 and column 60. -/
theorem witness_covered_pixel : (regs base [(1, 60), (2, 5)]).CoversPixel 0x1 0x2 0x5 5 60 :=
  ⟨0, 0, by decide, by decide, rfl, by decide, by decide⟩

theorem witness_DrawFaultsOutsideMemory :
    (0xF : Nibble).toNat > 0 ∧ (indexed 0xFF2).i.toNat + (0xF : Nibble).toNat - 1 ≥ 4096 ∧
    (0x1 : Nibble).toNat > 0 ∧ (indexed 0x1000).i.toNat + (0x1 : Nibble).toNat - 1 ≥ 4096 := by decide

theorem witness_DrawingTwiceRestores :
    (0x1 : RegIdx) ≠ vf ∧ (0x2 : RegIdx) ≠ vf ∧ base.i.toNat + (0x5 : Nibble).toNat - 1 < 4096 := by decide

theorem witness_SkipsOnKeyLevel :
    (0xA : Nibble).toNat = ((regs (holding 0xA) [(4, 0x3A)]).getV 4).toNat % 16 ∧
    (regs (holding 0xA) [(4, 0x3A)]).getKey 0xA = true ∧
    (0xA : Nibble).toNat = ((regs base [(4, 0x0A)]).getV 4).toNat % 16 ∧ (regs base [(4, 0x0A)]).getKey 0xA = false := by decide

theorem witness_WaitForKeypressSuspendsAndResumes : (holding 5).getKey 0xB = false ∧ (holding 5).getKey 5 = true := by decide

/-- A running core with nothing scheduled, and its step raising each of the four causes. -/
theorem witness_FatalExactlyWhenListed :
    base.status = .running ∧ base.env.agenda = [] ∧
    endsIn (step { program [0x24, 0x00] with sp := 16 }) (fun t => !t.live) = true ∧
    endsIn (step (program [0x00, 0xEE])) (fun t => !t.live) = true ∧
    endsIn (step { program [0xF0, 0x33] with i := 0xFFE }) (fun t => !t.live) = true ∧
    endsIn (step base) (fun t => !t.live) = true ∧ endsIn (step { base with pc := 0xFFF }) (fun t => !t.live) = true := by decide

theorem witness_FatalConditionsArePrecise :
    exec .ret base = .next (nextOf (exec .ret base)) ∧ base.status = .running ∧
    (nextOf (exec .ret base)).status = .faulted ⟨.stackUnderflow, 0x200, some 0x00EE, none⟩ := ⟨rfl, by decide, by decide⟩

/-- A core FAULTED at 0x200 by a Return with no entry live. -/
def faulted : State := (program [0x00, 0xEE]).raise .stackUnderflow (some 0x00EE) none

theorem witness_OnlyResetLeavesFaulted :
    (scheduled faulted [.tick]).status = .faulted ⟨.stackUnderflow, 0x200, some 0x00EE, none⟩ ∧
    (scheduled faulted [.reset []]).status = .faulted ⟨.stackUnderflow, 0x200, some 0x00EE, none⟩ ∧
    step (scheduled faulted [.tick]) = .next (nextOf (step (scheduled faulted [.tick]))) ∧
    step (scheduled faulted [.reset []]) = .next (nextOf (step (scheduled faulted [.reset []]))) := ⟨rfl, rfl, rfl, rfl⟩

theorem witness_StepRunsTheDecodedInstruction :
    base.status = .running ∧ base.env.agenda = [] ∧ (scheduled base [.engine]).env.agenda = .engine :: [] ∧
    base.pc.toNat + 1 < 4096 ∧ ({ base with pc := 0xFFE } : State).pc.toNat + 1 < 4096 ∧
    decodeBytes [base.byteAt 0x200, base.byteAt 0x201] = .ok (.sys 0x000, []) ∧
    ({ base with pc := 0xFFF } : State).pc.toNat + 1 ≥ 4096 := ⟨rfl, rfl, rfl, by decide, by decide, rfl, by decide⟩

theorem witness_EngineHasNoStepUnlessRunning :
    waiting.env.agenda = [] ∧ waiting.status = .waitKey 3 ∧ faulted.env.agenda = [] ∧
    faulted.status = .faulted ⟨.stackUnderflow, 0x200, some 0x00EE, none⟩ := by decide

theorem witness_TickDecrementsBothTimers : (scheduled base [.tick, .engine]).env.agenda = .tick :: [.engine] := by decide

theorem witness_TimersCountDownToZero :
    exec (.setDelayTimer 0) base = .next (nextOf (exec (.setDelayTimer 0) base)) ∧
    exec (.setSoundTimer 0) base = .next (nextOf (exec (.setSoundTimer 0) base)) := ⟨rfl, rfl⟩

/-- A waiting core with 5 in DT and 1 in ST after `k` ticks. -/
def waitingAfter : Nat → State
  | 0 => { waiting with dt := 5, st := 1 }
  | k + 1 => (waitingAfter k).tick

/-- The engine's turn (which passes while the core waits) and the tick alternate. -/
def alternating (n : Nat) : AgentStep := if n % 2 = 0 then .engine else .tick

/-- A fair interleaving, its timers counting down from 5 and 1, in which no timer is written. -/
theorem witness_TimersCountDownToZero_fair :
    Interleaving alternating (fun n => waitingAfter (n / 2)) ∧ TimerClockFair alternating ∧
    ∀ k x, ¬(waitingAfter (k / 2)).Executes (.setDelayTimer x) ∧
      ¬(waitingAfter (k / 2)).Executes (.setSoundTimer x) := by
  have hw : ∀ k, (waitingAfter k).status = .waitKey 3 := by
    intro k
    induction k with
    | zero => rfl
    | succ k ih => exact ih
  refine ⟨fun n => ?_, fun n => ⟨2 * n + 1, by omega, if_neg (by omega)⟩, fun k x => ⟨fun h => ?_, fun h => ?_⟩⟩
  · show runAgent (alternating n) (waitingAfter (n / 2)) = .next (waitingAfter ((n + 1) / 2))
    unfold alternating
    by_cases h : n % 2 = 0
    · rw [if_pos h, show (n + 1) / 2 = n / 2 by omega]
      simp only [runAgent, hw]
    · rw [if_neg h, show (n + 1) / 2 = n / 2 + 1 by omega]; rfl
  all_goals exact absurd ((hw _).symm.trans h.1) nofun

theorem witness_KeyStepsActOnOneKey_held :
    (scheduled waiting [.keyDown 5]).env.agenda = .keyDown 5 :: [] ∧ (scheduled waiting [.keyDown 5]).getKey 5 = true := by decide

theorem witness_KeyStepsActOnOneKey_running :
    (scheduled base [.keyDown 5]).env.agenda = .keyDown 5 :: [] ∧ (scheduled base [.keyDown 5]).getKey 5 = false ∧
    ∀ x, (scheduled base [.keyDown 5]).status ≠ .waitKey x := ⟨rfl, rfl, nofun⟩

theorem witness_KeyStepsActOnOneKey_waiting :
    (scheduled waiting [.keyDown 0xB]).env.agenda = .keyDown 0xB :: [] ∧ (scheduled waiting [.keyDown 0xB]).getKey 0xB = false ∧
    (scheduled waiting [.keyDown 0xB]).status = .waitKey 3 ∧ (scheduled waiting [.keyUp 5]).env.agenda = .keyUp 5 :: [] := by decide

theorem witness_KeyStepsActOnOneKey_samples :
    (scheduled base [.sampleFramebuffer]).env.agenda = .sampleFramebuffer :: [] ∧
    (scheduled base [.sampleSound]).env.agenda = .sampleSound :: [] ∧
    (scheduled base [.readStatus]).env.agenda = .readStatus :: [] := by decide

theorem witness_ResetRestoresThePostLoadState :
    (scheduled faulted [.reset [0x60, 0x05]]).env.agenda = .reset [0x60, 0x05] :: [] ∧
    (List.replicate 3584 (0 : Byte)).length ≤ 3584 ∧ (List.replicate 3585 (0 : Byte)).length > 3584 := by
  exact ⟨rfl, by rw [List.length_replicate], by rw [List.length_replicate]; decide⟩

theorem witness_OnlyKeyEventOrResetLeavesWait :
    (scheduled waiting [.keyDown 0xB]).status = .waitKey 3 ∧ waiting.status = .waitKey 3 ∧
    step waiting = .next (nextOf (step waiting)) ∧
    step (scheduled waiting [.keyDown 0xB]) = .next (nextOf (step (scheduled waiting [.keyDown 0xB]))) ∧
    step (scheduled waiting [.engine]) = .next (nextOf (step (scheduled waiting [.engine]))) ∧
    step (scheduled waiting [.reset []]) = .next (nextOf (step (scheduled waiting [.reset []]))) := ⟨rfl, rfl, rfl, rfl, rfl, rfl⟩

/-- An ended program at 0x200, and one at the last address at which a Jump lies inside memory. -/
theorem witness_SelfJumpIsAFixedPoint :
    (program [0x12, 0x00]).ended = true ∧ (program [0x12, 0x00]).env.agenda = [] ∧
    (bytes { base with pc := 0xFFE } 0xFFE [0x1F, 0xFE]).ended = true ∧
    step (scheduled (program [0x12, 0x00]) [.tick]) = .next (nextOf (step (scheduled (program [0x12, 0x00]) [.tick]))) :=
  ⟨by decide, by decide, by decide, rfl⟩

/-- A jump elsewhere, a FAULTED core and a waiting core have not ended (rule R43). -/
theorem test_not_ended :
    (program [0x12, 0x02]).ended = false ∧ faulted.ended = false ∧ waiting.ended = false ∧
    ({ base with pc := 0xFFF } : State).ended = false := by decide

theorem witness_StepKeepsMemoryCanonical :
    (program [0xF0, 0x33]).MemInv ∧ step (program [0xF0, 0x33]) = .next (nextOf (step (program [0xF0, 0x33]))) ∧
    SomeAgentMoves (program [0xF0, 0x33]) (program [0xF0, 0x33]).tick := ⟨rfl, rfl, .tick, rfl⟩

/-- The status invariant holds of a waiting core and of a FAULTED one, and each steps on. -/
theorem witness_StepKeepsStatusTruthful_waiting :
    waiting.StatusInv ∧ step waiting = .next (nextOf (step waiting)) ∧ SomeAgentMoves waiting (waiting.keyDown 0xB) :=
  ⟨⟨by decide, by decide, by decide⟩, rfl, .keyDown 0xB, rfl⟩

theorem witness_StepKeepsStatusTruthful_faulted : faulted.StatusInv ∧ SomeAgentMoves faulted faulted.tick :=
  ⟨⟨by decide, by decide, by decide, by decide, by decide, by decide⟩, .tick, rfl⟩

theorem witness_VfWrittenOnlyAsFlagOrDestination :
    exec (.add 1 2) (regs base [(1, 0xFF), (2, 1)]) = .next (nextOf (exec (.add 1 2) (regs base [(1, 0xFF), (2, 1)]))) ∧
    (nextOf (exec (.add 1 2) (regs base [(1, 0xFF), (2, 1)]))).getV vf ≠ (regs base [(1, 0xFF), (2, 1)]).getV vf ∧
    (Instr.add 1 2).setsFlag = true ∧ base.live = true ∧
    (nextOf (exec (.add 1 2) (regs base [(1, 0xFF), (2, 1)]))).live = true := ⟨rfl, by decide, rfl, rfl, rfl⟩

theorem witness_RegistersKeptButDestinations :
    exec (.loadRegisters 4) base = .next (nextOf (exec (.loadRegisters 4) base)) ∧
    (0x5 : RegIdx) ∉ (Instr.loadRegisters 4).destinations ∧ (Instr.loadRegisters 4).setsFlag = false := ⟨rfl, by decide, rfl⟩

/-- The byte below the stored ones and the byte above them. -/
theorem witness_MemoryKeptOutsideStoredBytes :
    (indexed 0x300).MemInv ∧ exec (.storeBCD 0) (indexed 0x300) = .next (nextOf (exec (.storeBCD 0) (indexed 0x300))) ∧
    0x2FF < (indexed 0x300).i.toNat ∧ (indexed 0x300).i.toNat + (Instr.storeBCD 0).storedCount ≤ 0x303 := ⟨rfl, rfl, by decide, by decide⟩

theorem witness_AluFamilyTouchesOnlyRegisters :
    (Instr.random 3 0x0F).row ∈ [9, 10, 11, 12, 13, 14, 15, 16, 17, 18, 19, 23] ∧
    (Instr.add 1 2).row ∈ [9, 10, 11, 12, 13, 14, 15, 16, 17, 18, 19, 23] := by decide

theorem witness_ControlFlowTouchesOnlyPcAndStack :
    (Instr.call 0x300).row ∈ [2, 3, 4, 5, 6, 7, 8, 20, 22, 25, 26, 36] ∧
    exec (.call 0x300) base = .next (nextOf (exec (.call 0x300) base)) := ⟨by decide, rfl⟩

theorem witness_DeviceAndIndexFrames :
    exec (.setDelayTimer 0) base = .next (nextOf (exec (.setDelayTimer 0) base)) ∧ (Instr.setDelayTimer 0).row ≠ 1 ∧
    (Instr.setDelayTimer 0).row ∉ [21, 31, 32, 34, 35] := ⟨rfl, by decide, by decide⟩

theorem witness_ParametersNeverChange : step base = .next (nextOf (step base)) := rfl

theorem witness_NoInstructionReadsST :
    exec (.setSoundTimer 0) base = .next (nextOf (exec (.setSoundTimer 0) base)) ∧
    exec (.readDelayTimer 0) base = .next (nextOf (exec (.readDelayTimer 0) base)) := ⟨rfl, rfl⟩

theorem witness_DeadStackEntriesAreUnobservable :
    SameButDeadEntries { base with sp := 1 } { base with sp := 1, stack := base.stack.set 1 0x206 } ∧
    step { base with sp := 1 } = .next (nextOf (step { base with sp := 1 })) := ⟨⟨rfl, by decide⟩, rfl⟩

end Sys2Proof.Tests
end

section
/-! PROOFS. The decoder by its families, the round trip of the canonical encoder (rule R91), the Invalid set (rule R90), and the
opcode map tried in order (rule R97). -/

namespace Sys2Proof

/-! ### The decoder, family by family (rules R82, R86 to R88) -/

theorem decode_of_op_zero {w : Word} (h : fieldOp w = 0x0#4) : decode w = decodeFamily0 w := by
  simp [decode, h]

theorem decode_eq_sys {w : Word} (h : fieldOp w = 0x0#4) (hE0 : w ≠ 0x00E0#16) (hEE : w ≠ 0x00EE#16) :
    decode w = .sys (fieldNNN w) := by
  rw [decode_of_op_zero h, decodeFamily0, if_neg hE0, if_neg hEE]

/-- The decoder's last branch names no family nibble: it is what fifteen others leave. -/
theorem eq_fifteen_of_not_mem : ∀ op : Nibble,
    op ∉ [0x0#4, 0x1#4, 0x2#4, 0x3#4, 0x4#4, 0x5#4, 0x6#4, 0x7#4] ++
      [0x8#4, 0x9#4, 0xA#4, 0xB#4, 0xC#4, 0xD#4, 0xE#4] → op = 0xF#4 := by
  decide

/-! ### The Invalid set (rule R90) -/

theorem invalidWord_iff (w : Word) : invalidWord w = true ↔
    (w.toNat / 4096 = 0x8 ∧ w.toNat % 16 ∈ [0x8, 0x9, 0xA, 0xB, 0xC, 0xD, 0xF]) ∨
    (w.toNat / 4096 = 0xE ∧ w.toNat % 256 ∉ [0x9E, 0xA1]) ∨
    (w.toNat / 4096 = 0xF ∧ w.toNat % 256 ∉ [0x07, 0x0A, 0x15, 0x18, 0x1E, 0x29, 0x33, 0x55, 0x65]) := by
  simp [invalidWord, or_assoc]

theorem invalidWord_family8 (w : Word) (h : w.toNat / 4096 = 0x8) :
    invalidWord w = true ↔ w.toNat % 16 ∉ [0x0, 0x1, 0x2, 0x3, 0x4, 0x5, 0x6, 0x7, 0xE] := by
  simp only [invalidWord_iff, List.mem_cons, List.not_mem_nil, or_false]
  omega

theorem invalidWord_familyE (w : Word) (h : w.toNat / 4096 = 0xE) :
    invalidWord w = true ↔ w.toNat % 256 ∉ [0x9E, 0xA1] := by
  simp [invalidWord_iff, h]

theorem invalidWord_familyF (w : Word) (h : w.toNat / 4096 = 0xF) :
    invalidWord w = true ↔ w.toNat % 256 ∉ [0x07, 0x0A, 0x15, 0x18, 0x1E, 0x29, 0x33, 0x55, 0x65] := by
  simp [invalidWord_iff, h]

/-- The low nibbles with which a word of family 8 decodes (rule R87). -/
def decodedNibbles8 : List Nibble := [0x0#4, 0x1#4, 0x2#4, 0x3#4, 0x4#4, 0x5#4, 0x6#4, 0x7#4, 0xE#4]

/-- The low bytes with which a word of family E decodes (rule R88). -/
def decodedBytesE : List Byte := [0x9E#8, 0xA1#8]

/-- The low bytes with which a word of family F decodes (rule R88). -/
def decodedBytesF : List Byte :=
  [0x07#8, 0x0A#8, 0x15#8, 0x18#8, 0x1E#8, 0x29#8, 0x33#8, 0x55#8, 0x65#8]

theorem decodeFamily8_eq_invalid_iff (w v : Word) :
    decodeFamily8 w = .invalid v ↔ w = v ∧ fieldN w ∉ decodedNibbles8 := by
  unfold decodeFamily8 decodedNibbles8
  split <;> simp_all

theorem decodeFamilyE_eq_invalid_iff (w v : Word) :
    decodeFamilyE w = .invalid v ↔ w = v ∧ fieldKK w ∉ decodedBytesE := by
  unfold decodeFamilyE decodedBytesE
  split <;> simp_all

theorem decodeFamilyF_eq_invalid_iff (w v : Word) :
    decodeFamilyF w = .invalid v ↔ w = v ∧ fieldKK w ∉ decodedBytesF := by
  unfold decodeFamilyF decodedBytesF
  split <;> simp_all

theorem invalidWord_iff_fields (w : Word) : invalidWord w = true ↔
    (fieldOp w = 0x8#4 ∧ fieldN w ∉ decodedNibbles8) ∨ (fieldOp w = 0xE#4 ∧ fieldKK w ∉ decodedBytesE) ∨
    (fieldOp w = 0xF#4 ∧ fieldKK w ∉ decodedBytesF) := by
  simp only [invalidWord_iff, decodedNibbles8, decodedBytesE, decodedBytesF, List.mem_cons, List.not_mem_nil, or_false,
    ← BitVec.toNat_inj, fieldOp_toNat, fieldN_toNat, fieldKK_toNat, BitVec.toNat_ofNat]
  omega

theorem decode_eq_invalid_iff (w v : Word) : decode w = .invalid v ↔ w = v ∧ invalidWord w = true := by
  rw [invalidWord_iff_fields]
  unfold decode
  split
  case h_1 h => simp only [h, decodeFamily0]; split_ifs <;> simp
  case h_9 h => simp [h, decodeFamily8_eq_invalid_iff]
  case h_15 h => simp [h, decodeFamilyE_eq_invalid_iff]
  case h_16 =>
    have h : fieldOp w = 0xF#4 := eq_fifteen_of_not_mem _ (by simp_all)
    simp [h, decodeFamilyF_eq_invalid_iff]
  all_goals simp [*]

/-! ### Decoding the canonical encoding (rules R91, R92) -/

/-- `Sys` of an address other than the two of rule R86. -/
theorem decode_wordNNN_zero {nnn : Address} (hE0 : nnn ≠ 0x0E0) (hEE : nnn ≠ 0x0EE) :
    decode (wordNNN 0x0 nnn) = .sys nnn := by
  have word_ne {a : Address} (h : nnn ≠ a) : wordNNN 0x0 nnn ≠ wordNNN 0x0 a := fun e =>
    h (by simpa using congrArg fieldNNN e)
  rw [decode_eq_sys (fieldOp_wordNNN 0x0 nnn) (word_ne hE0) (word_ne hEE), fieldNNN_wordNNN]

/-- Settles O1, by the format of each row: the decoder reads back the fields the encoder inserted. -/
theorem decodeOfEncodeIsIdentity : Obligations.DecodeOfEncodeIsIdentity := by
  unfold Obligations.DecodeOfEncodeIsIdentity
  intro i hi
  cases i with
  | clearDisplay | ret => rfl
  | sys nnn =>
    obtain ⟨hE0, hEE⟩ : nnn ≠ 0x0E0 ∧ nnn ≠ 0x0EE := by simpa [Instr.wellFormed] using hi
    exact decode_wordNNN_zero hE0 hEE
  | jump | call | storeI | jumpOffset => simp [encode, decode]
  | skipEqualK | skipNotEqualK | storeK | addK | random => simp [encode, decode]
  | skipEqual | skipNotEqual | draw => simp [encode, decode]
  | store | or | and | xor | add | sub | shiftRight | subReversed | shiftLeft => simp [encode, decode, decodeFamily8]
  | skipKeyPressed | skipKeyNotPressed => simp [encode, decode, decodeFamilyE]
  | readDelayTimer | waitForKeypressAndStore | setDelayTimer | setSoundTimer | addI | glyphAddress | storeBCD
  | storeRegisters | loadRegisters => simp [encode, decode, decodeFamilyF]
  | invalid w => exact (decode_eq_invalid_iff w w).mpr ⟨rfl, hi⟩

/-! ### Rows as numbers -/

theorem Instr.row_eq_36_iff (i : Instr) : i.row = 36 ↔ ∃ v, i = .invalid v := by
  cases i <;> simp [Instr.row]

theorem row_decode_eq_36_iff (w : Word) : (decode w).row = 36 ↔ invalidWord w = true := by
  simp [Instr.row_eq_36_iff, decode_eq_invalid_iff]

/-! ### The lines of the opcode map (rule R83) -/

/-- The row numbers rise along the map. -/
theorem opcodeMap_rows_rise : opcodeMap.Pairwise (·.row < ·.row) := by decide

theorem lines_rows_1_2 : ∀ l ∈ opcodeMap, l.row = 1 ∨ l.row = 2 →
    (l.pattern = 0x00E0#16 ∨ l.pattern = 0x00EE#16) ∧ l.mask = 0xFFFF#16 := by decide

theorem line_row_3 : ∀ l ∈ opcodeMap, l.row = 3 → l.pattern = 0x0000#16 ∧ l.mask = 0xF000#16 := by decide

theorem line_row_36 : ∀ l ∈ opcodeMap, l.row = 36 → l.pattern = 0x0000#16 ∧ l.mask = 0x0000#16 := by decide

theorem lines_fix_op : ∀ l ∈ opcodeMap, l.row ≠ 36 → fieldOp l.mask = 0xF#4 := by decide

theorem lines_family8 : ∀ l ∈ opcodeMap, l.row ≠ 36 → fieldOp l.pattern = 0x8#4 →
    fieldN l.mask = 0xF#4 ∧ fieldN l.pattern ∈ decodedNibbles8 := by decide

theorem lines_familyE : ∀ l ∈ opcodeMap, l.row ≠ 36 → fieldOp l.pattern = 0xE#4 →
    fieldKK l.mask = 0xFF#8 ∧ fieldKK l.pattern ∈ decodedBytesE := by decide

theorem lines_familyF : ∀ l ∈ opcodeMap, l.row ≠ 36 → fieldOp l.pattern = 0xF#4 →
    fieldKK l.mask = 0xFF#8 ∧ fieldKK l.pattern ∈ decodedBytesF := by decide

/-- Two lines agree on the bits both examine only where rule R97 says the rows overlap. -/
theorem agreeing_lines_overlap : ∀ l ∈ opcodeMap, ∀ m ∈ opcodeMap, l.row < m.row →
    l.pattern &&& m.mask = m.pattern &&& l.mask → m.row = 36 ∨ (m.row = 3 ∧ (l.row = 1 ∨ l.row = 2)) := by decide

/-! ### A word against the lines (rule R97) -/

/-- Two lines that match one word agree on the bits both examine. -/
theorem patterns_agree_of_match {w p m p' m' : Word} (h : w &&& m = p) (h' : w &&& m' = p') :
    p &&& m' = p' &&& m := by
  rw [← h, ← h', BitVec.and_assoc, BitVec.and_assoc, BitVec.and_comm m]

/-- A line fixes every part of the word that its mask covers. -/
theorem extractLsb'_eq_of_match {w p m : Word} {start len : Nat} (h : w &&& m = p)
    (hm : m.extractLsb' start len = BitVec.allOnes len) : w.extractLsb' start len = p.extractLsb' start len := by
  rw [← h, BitVec.extractLsb'_and, hm, BitVec.and_allOnes]

theorem eq_of_match_rows_1_2 {w : Word} {l : OpcodeLine} (hl : l ∈ opcodeMap) (hr : l.row = 1 ∨ l.row = 2)
    (h : w &&& l.mask = l.pattern) : w = 0x00E0#16 ∨ w = 0x00EE#16 := by
  obtain ⟨hp, hm⟩ := lines_rows_1_2 l hl hr
  have hw : w = l.pattern := by rw [← h, hm]; exact BitVec.and_allOnes.symm
  rwa [hw]

theorem match_row_3_iff {w : Word} {l : OpcodeLine} (hl : l ∈ opcodeMap) (hr : l.row = 3) :
    w &&& l.mask = l.pattern ↔ fieldOp w = 0x0#4 := by
  obtain ⟨hp, hm⟩ := line_row_3 l hl hr
  rw [hp, hm, and_mask_op]
  exact ⟨fun h => (fieldOp_wordNNN _ 0).symm.trans (congrArg fieldOp h), fun h => by rw [h]; rfl⟩

theorem match_row_36 (w : Word) {l : OpcodeLine} (hl : l ∈ opcodeMap) (hr : l.row = 36) : w &&& l.mask = l.pattern := by
  obtain ⟨hp, hm⟩ := line_row_36 l hl hr
  rw [hp, hm, BitVec.and_zero]

/-- No line but the last matches a word of the Invalid set. -/
theorem row_eq_36_of_match_invalidWord {w : Word} {l : OpcodeLine} (hw : invalidWord w = true) (hl : l ∈ opcodeMap)
    (h : w &&& l.mask = l.pattern) : l.row = 36 := by
  by_contra hr
  have hop : fieldOp w = fieldOp l.pattern := extractLsb'_eq_of_match h (lines_fix_op l hl hr)
  rcases (invalidWord_iff_fields w).mp hw with ⟨h8, hn⟩ | ⟨hE, hkk⟩ | ⟨hF, hkk⟩
  · obtain ⟨hm, hp⟩ := lines_family8 l hl hr (hop ▸ h8)
    have hN : fieldN w = fieldN l.pattern := extractLsb'_eq_of_match h hm
    exact hn (hN ▸ hp)
  · obtain ⟨hm, hp⟩ := lines_familyE l hl hr (hop ▸ hE)
    have hKK : fieldKK w = fieldKK l.pattern := extractLsb'_eq_of_match h hm
    exact hkk (hKK ▸ hp)
  · obtain ⟨hm, hp⟩ := lines_familyF l hl hr (hop ▸ hF)
    have hKK : fieldKK w = fieldKK l.pattern := extractLsb'_eq_of_match h hm
    exact hkk (hKK ▸ hp)

/-! ### The decoder answers a row the word matches -/

/-- Some line with row number `r` matches the word. -/
def MatchesRow (w : Word) (r : Nat) : Prop := ∃ l ∈ opcodeMap, l.row = r ∧ w &&& l.mask = l.pattern

theorem matchesRow_36 (w : Word) : MatchesRow w 36 :=
  ⟨⟨36, 0x0000, 0x0000⟩, by decide, rfl, BitVec.and_zero⟩

theorem matchesRow_of_op {w : Word} {op : Nibble} {r : Nat} (h : fieldOp w = op)
    (hl : ⟨r, wordNNN op 0, 0xF000⟩ ∈ opcodeMap) : MatchesRow w r :=
  ⟨_, hl, rfl, h ▸ and_mask_op w⟩

theorem matchesRow_of_op_n {w : Word} {op n : Nibble} {r : Nat} (h : fieldOp w = op) (hn : fieldN w = n)
    (hl : ⟨r, wordXYN op 0 0 n, 0xF00F⟩ ∈ opcodeMap) : MatchesRow w r :=
  ⟨_, hl, rfl, h ▸ hn ▸ and_mask_op_n w⟩

theorem matchesRow_of_op_kk {w : Word} {op : Nibble} {kk : Byte} {r : Nat} (h : fieldOp w = op) (hkk : fieldKK w = kk)
    (hl : ⟨r, wordXKK op 0 kk, 0xF0FF⟩ ∈ opcodeMap) : MatchesRow w r :=
  ⟨_, hl, rfl, h ▸ hkk ▸ and_mask_op_kk w⟩

theorem matchesRow_decodeFamily0 {w : Word} (h : fieldOp w = 0x0#4) : MatchesRow w (decodeFamily0 w).row := by
  unfold decodeFamily0
  split_ifs with hE0 hEE
  · exact ⟨⟨1, 0x00E0, 0xFFFF⟩, by decide, rfl, hE0 ▸ rfl⟩
  · exact ⟨⟨2, 0x00EE, 0xFFFF⟩, by decide, rfl, hEE ▸ rfl⟩
  · exact matchesRow_of_op h (by rw [Instr.row]; decide)

theorem matchesRow_decodeFamily8 {w : Word} (h : fieldOp w = 0x8#4) : MatchesRow w (decodeFamily8 w).row := by
  unfold decodeFamily8
  split
  case h_10 => exact matchesRow_36 w
  all_goals exact matchesRow_of_op_n h ‹_› (by rw [Instr.row]; decide)

theorem matchesRow_decodeFamilyE {w : Word} (h : fieldOp w = 0xE#4) : MatchesRow w (decodeFamilyE w).row := by
  unfold decodeFamilyE
  split
  case h_3 => exact matchesRow_36 w
  all_goals exact matchesRow_of_op_kk h ‹_› (by rw [Instr.row]; decide)

theorem matchesRow_decodeFamilyF {w : Word} (h : fieldOp w = 0xF#4) : MatchesRow w (decodeFamilyF w).row := by
  unfold decodeFamilyF
  split
  case h_10 => exact matchesRow_36 w
  all_goals exact matchesRow_of_op_kk h ‹_› (by rw [Instr.row]; decide)

theorem matchesRow_decode (w : Word) : MatchesRow w (decode w).row := by
  unfold decode
  split
  case h_1 h => exact matchesRow_decodeFamily0 h
  case h_9 h => exact matchesRow_decodeFamily8 h
  case h_15 h => exact matchesRow_decodeFamilyE h
  case h_16 => exact matchesRow_decodeFamilyF (eq_fifteen_of_not_mem _ (by simp_all))
  all_goals exact matchesRow_of_op ‹_› (by rw [Instr.row]; decide)

/-- `Sys` is what family 0 has but its two fixed words (rule R86). -/
theorem row_decode_eq_3_iff (w : Word) :
    (decode w).row = 3 ↔ fieldOp w = 0x0#4 ∧ w ≠ 0x00E0#16 ∧ w ≠ 0x00EE#16 := by
  constructor
  · intro h
    obtain ⟨l, hl, hr, hw⟩ := matchesRow_decode w
    refine ⟨(match_row_3_iff hl (hr.trans h)).mp hw, ?_, ?_⟩
    · rintro rfl; exact absurd h (by decide)
    · rintro rfl; exact absurd h (by decide)
  · rintro ⟨hop, hE0, hEE⟩
    rw [decode_eq_sys hop hE0 hEE, Instr.row]

/-! ### The first row (rule R97) -/

theorem firstRow_eq_some {w : Word} {l : OpcodeLine} (hl : l ∈ opcodeMap) (h : w &&& l.mask = l.pattern)
    (hfirst : ∀ k ∈ opcodeMap, k.row < l.row → w &&& k.mask ≠ k.pattern) : firstRow w = some l.row := by
  obtain ⟨before, after, hmap⟩ := List.append_of_mem hl
  obtain ⟨-, -, hlt⟩ := List.pairwise_append.mp (hmap ▸ opcodeMap_rows_rise)
  have hfind : opcodeMap.find? (fun l => w &&& l.mask == l.pattern) = some l := by
    refine List.find?_eq_some_iff_append.mpr ⟨beq_iff_eq.mpr h, before, after, hmap, fun k hk => ?_⟩
    have hne := hfirst k (hmap ▸ List.mem_append_left _ hk) (hlt k hk l List.mem_cons_self)
    simpa using hne
  rw [firstRow, hfind, Option.map_some]

theorem not_match_of_row_lt_decode {w : Word} {k : OpcodeLine} (hk : k ∈ opcodeMap) (hlt : k.row < (decode w).row) :
    w &&& k.mask ≠ k.pattern := by
  intro hmatch
  obtain ⟨l, hl, hrow, hw⟩ := matchesRow_decode w
  rw [← hrow] at hlt
  rcases agreeing_lines_overlap k hk l hl hlt (patterns_agree_of_match hmatch hw) with h36 | ⟨h3, h12⟩
  · have hinv : invalidWord w = true := (row_decode_eq_36_iff w).mp (hrow ▸ h36)
    exact hlt.ne ((row_eq_36_of_match_invalidWord hinv hk hmatch).trans h36.symm)
  · obtain ⟨-, hE0, hEE⟩ := (row_decode_eq_3_iff w).mp (hrow ▸ h3)
    exact (eq_of_match_rows_1_2 hk h12 hmatch).elim hE0 hEE

theorem firstRow_eq_row_decode (w : Word) : firstRow w = some (decode w).row := by
  obtain ⟨l, hl, hrow, hw⟩ := matchesRow_decode w
  rw [← hrow]
  exact firstRow_eq_some hl hw fun k hk hlt => not_match_of_row_lt_decode hk (hrow ▸ hlt)

/-- Settles O5: the decoded row matches and no earlier one does, since two lines that match one word agree on the bits both
examine, which leaves only the overlaps of rule R97. -/
theorem decoderAgreesWithPriorityTable : Obligations.DecoderAgreesWithPriorityTable := by
  unfold Obligations.DecoderAgreesWithPriorityTable
  refine ⟨firstRow_eq_row_decode, fun w => ?_, fun w => ?_, fun w l m hl hm hlr hmr hw => ?_,
    fun w m hm hr => match_row_36 w hm hr, fun w l m hl hm hlt hw hw' =>
      agreeing_lines_overlap l hl m hm hlt (patterns_agree_of_match hw hw')⟩
  · rw [firstRow_eq_row_decode, Option.some_inj, row_decode_eq_3_iff, ← BitVec.toNat_inj, fieldOp_toNat, ne_eq, ne_eq,
      ← BitVec.toNat_inj, ← BitVec.toNat_inj]
    rfl
  · rw [firstRow_eq_row_decode, Option.some_inj, row_decode_eq_36_iff]
  · rw [match_row_3_iff hm hmr]
    rcases eq_of_match_rows_1_2 hl hlr hw with rfl | rfl <;> rfl

/-! ### How many words of a family decode to `Invalid` or `Sys` (rule R90) -/

/-- A count over whole periods of `a`. -/
theorem countP_range_mul {p : Nat → Bool} {a : Nat} (hp : ∀ m, p (a + m) = p m) (k : Nat) :
    (List.range (a * k)).countP p = k * (List.range a).countP p := by
  induction k with
  | zero => simp
  | succ k ih =>
    have hshift : p ∘ (a + ·) = p := funext hp
    rw [Nat.mul_succ, Nat.add_comm, List.range_add, List.countP_append, List.countP_map, hshift, ih, Nat.succ_mul,
      Nat.add_comm]

theorem countP_range_not_mem {l : List Nat} {a : Nat} (hl : l.Nodup) (hlt : ∀ m ∈ l, m < a) :
    (List.range a).countP (· ∉ l) = a - l.length := by
  have hmem : (List.range a).countP (· ∈ l) = l.length := by
    rw [List.countP_eq_length_filter]
    refine ((List.perm_ext_iff_of_nodup (List.nodup_range.filter _) hl).mpr fun m => ?_).length_eq
    simpa using hlt m
  have hsum := List.length_eq_countP_add_countP (· ∈ l) (l := List.range a)
  rw [hmem, List.length_range] at hsum
  simp only [decide_eq_true_eq] at hsum
  omega

/-- The Invalid words of a family in which the remainder modulo `a` says which words decode. -/
theorem countP_row_36 {base f a : Nat} (k : Nat) {decoded : List Nat} (hf : f < 16) (hbase : base = 4096 * f)
    (hak : 4096 = a * k) (hd : decoded.Nodup) (hlt : ∀ m ∈ decoded, m < a)
    (h : ∀ w : Word, w.toNat / 4096 = f → (invalidWord w = true ↔ w.toNat % a ∉ decoded)) :
    (List.range 4096).countP (fun m => (decode (BitVec.ofNat 16 (base + m))).row == 36) =
      k * (a - decoded.length) := by
  have hinvalid : ∀ m ∈ List.range 4096,
      ((decode (BitVec.ofNat 16 (base + m))).row == 36) = true ↔ decide (m % a ∉ decoded) = true := by
    intro m hm
    have hm' := List.mem_range.mp hm
    have hnat : (BitVec.ofNat 16 (base + m)).toNat = 4096 * f + m := by rw [BitVec.toNat_ofNat, hbase]; omega
    have hmod : (4096 * f + m) % a = m % a := by rw [hak, Nat.mul_assoc, Nat.mul_add_mod]
    rw [beq_iff_eq, row_decode_eq_36_iff, h _ (by rw [hnat]; omega), hnat, hmod, decide_eq_true_iff]
  have hrem : ∀ m ∈ List.range a, decide (m % a ∉ decoded) = true ↔ decide (m ∉ decoded) = true := fun m hm => by
    rw [Nat.mod_eq_of_lt (List.mem_range.mp hm)]
  rw [List.countP_congr hinvalid, hak, countP_range_mul (fun m => by rw [Nat.add_mod_left]), List.countP_congr hrem,
    countP_range_not_mem hd hlt]

theorem countP_row_3 : (List.range 4096).countP (fun m => (decode (BitVec.ofNat 16 m)).row == 3) = 4094 := by
  have hsys : ∀ m ∈ List.range 4096,
      ((decode (BitVec.ofNat 16 m)).row == 3) = true ↔ decide (m ∉ [0x00E0, 0x00EE]) = true := by
    intro m hm
    have hm' := List.mem_range.mp hm
    simp only [beq_iff_eq, row_decode_eq_3_iff, ← BitVec.toNat_inj, ne_eq, fieldOp_toNat, BitVec.toNat_ofNat,
      decide_eq_true_iff, List.mem_cons, List.not_mem_nil, or_false]
    omega
  rw [List.countP_congr hsys, countP_range_not_mem (by decide) (by decide)]
  rfl

/-- Settles O4: the decoder answers `Invalid` on the set of rule R90, whose membership within a family has the period 16 or
256. -/
theorem invalidExactlyOnInvalidSet : Obligations.InvalidExactlyOnInvalidSet := by
  unfold Obligations.InvalidExactlyOnInvalidSet
  refine ⟨fun w => ?_, fun w v h => ((decode_eq_invalid_iff w v).mp h).1.symm, ?_, ?_, ?_, countP_row_3⟩
  · rw [decode_eq_invalid_iff, invalidWord_iff, and_iff_right rfl]
  · rw [countP_row_36 256 (by decide) rfl rfl (by decide) (by decide) invalidWord_family8]; rfl
  · rw [countP_row_36 16 (by decide) rfl rfl (by decide) (by decide) invalidWord_familyE]; rfl
  · rw [countP_row_36 16 (by decide) rfl rfl (by decide) (by decide) invalidWord_familyF]; rfl

end Sys2Proof
end

section
/-! PROOFS. Jump, Call, Return and the skips against a constant (40_control_flow.md): the word of each instruction by its number,
and what executing it answers in each case of the stack depth or the condition. -/

namespace Sys2Proof.Machine

/-! ### The word of an instruction decodes to it (rules R91, R92) -/

theorem decodesTo_of_encode {i : Instr} {n : Nat} (hwf : i.wellFormed = true) (hn : (encode i).toNat = n) :
    DecodesTo n i :=
  decodesTo_of_word (encode i) hn (decodeOfEncodeIsIdentity i hwf)

theorem decodesTo_of_encode_wordXKK {i : Instr} {op : Nibble} {x : RegIdx} {kk : Byte} (hwf : i.wellFormed = true)
    (hi : encode i = wordXKK op x kk) : DecodesTo (op.toNat * 4096 + 256 * x.toNat + kk.toNat) i :=
  decodesTo_of_encode hwf (by rw [hi, wordXKK_toNat, Nat.mul_comm x.toNat])

theorem encode_call_toNat (nnn : Address) : (encode (.call nnn)).toNat = 0x2000 + nnn.toNat := wordNNN_toNat 0x2 nnn

/-! ### Where PC goes (rules R37, R85) -/

theorem zext16_toNat (nnn : Address) : (zext16 nnn).toNat = nnn.toNat :=
  BitVec.toNat_setWidth_of_le (by decide)

/-- The address after an instruction, as a number (rule R22). -/
theorem next_toNat (s : State) : s.next.toNat = (s.pc.toNat + 2) % 65536 := BitVec.toNat_add s.pc 2

theorem onlyPc_setPc (s : State) (a : Word) : OnlyPc s (s.setPc a) := rfl

theorem onlyPc_skipIf (s : State) (c : Bool) : OnlyPc s (s.skipIf c) := rfl

theorem pcMoves_skipIf (s : State) (c : Bool) : PcMoves (if c then 4 else 2) s (s.skipIf c) := by
  cases c
  · exact BitVec.toNat_add s.pc 2
  · exact BitVec.toNat_add s.pc 4

theorem pcMoves_skipIf_eq (s : State) (a b : Byte) :
    PcMoves (if a.toNat = b.toNat then 4 else 2) s (s.skipIf (a == b)) := by
  simpa [BitVec.toNat_inj] using pcMoves_skipIf s (a == b)

theorem pcMoves_skipIf_ne (s : State) (a b : Byte) :
    PcMoves (if a.toNat = b.toNat then 2 else 4) s (s.skipIf (a != b)) := by
  simpa [BitVec.toNat_inj] using pcMoves_skipIf s (a != b)

/-! ### Call and Return, by the depth of the stack (rules R112, R114) -/

theorem exec_call_of_lt {s : State} (nnn : Address) (h : s.sp.val < 16) :
    exec (.call nnn) s = .next { s with
      pc := zext16 nnn, sp := ⟨s.sp.val + 1, by omega⟩, stack := s.stack.set s.sp.val s.next h } := by
  rcases push_cases s s.next with ⟨_, _, hpush⟩ | ⟨hfull, _⟩
  · rw [exec, execCall, hpush]; rfl
  · omega

theorem exec_call_of_full {s : State} (nnn : Address) (h : s.sp.val = 16) :
    exec (.call nnn) s = .next (s.raise .stackOverflow (some (encode (.call nnn))) none) := by
  rcases push_cases s s.next with ⟨hlt, _, _⟩ | ⟨_, hpush⟩
  · omega
  · rw [exec, execCall, hpush]

theorem exec_ret_of_pos {s : State} (h : 0 < s.sp.val) :
    exec .ret s = .next { s with pc := s.stack[s.sp.val - 1], sp := ⟨s.sp.val - 1, by omega⟩ } := by
  rcases pop_cases s with ⟨_, _, _, hpop⟩ | ⟨hempty, _⟩
  · rw [exec, execReturn, hpop]; rfl
  · omega

theorem exec_ret_of_empty {s : State} (h : s.sp.val = 0) :
    exec .ret s = .next (s.raise .stackUnderflow (some (encode .ret)) none) := by
  rcases pop_cases s with ⟨_, _, hpos, _⟩ | ⟨_, hpop⟩
  · omega
  · rw [exec, execReturn, hpop]

theorem fatalEntry_raise (s : State) (c : Cause) (w : Option Word) (info : Option FaultInfo) :
    FatalEntry s (s.raise c w info) c w info := rfl

/-! ### The statements -/

/-- Settles O14: the target is zero-extended into PC. -/
theorem jumpGoesToItsAddress : Obligations.JumpGoesToItsAddress := by
  unfold Obligations.JumpGoesToItsAddress
  intro s nnn
  exact ⟨decodesTo_of_encode rfl (wordNNN_toNat 0x1 nnn), s.setPc (zext16 nnn), rfl, onlyPc_setPc s _, zext16_toNat nnn⟩

/-- Settles O16, by whether the stack has room for the pushed address. -/
theorem callPushesOrOverflows : Obligations.CallPushesOrOverflows := by
  unfold Obligations.CallPushesOrOverflows
  intro s nnn
  refine ⟨decodesTo_of_encode rfl (encode_call_toNat nnn), fun hlt => ?_, fun hfull => ?_⟩
  · refine ⟨_, exec_call_of_lt nnn hlt, rfl, zext16_toNat nnn, rfl, fun j hj => ?_, fun j hj => ?_⟩
    · simp [hj, next_toNat]
    · exact Vector.getElem_set_ne hlt j.isLt hj.symm
  · rw [← encode_eq_ofNat (encode_call_toNat nnn)]
    exact ⟨_, exec_call_of_full nnn hfull, fatalEntry_raise ..⟩

/-- Settles O17, by whether an entry is live. -/
theorem returnPopsOrUnderflows : Obligations.ReturnPopsOrUnderflows := by
  unfold Obligations.ReturnPopsOrUnderflows
  intro s
  refine ⟨decodesTo_of_encode (i := .ret) rfl rfl, fun hpos => ?_, fun hempty => ?_⟩
  · exact ⟨_, exec_ret_of_pos hpos, rfl, rfl, fun j hj => by simp [hj]⟩
  · exact ⟨_, exec_ret_of_empty hempty, fatalEntry_raise ..⟩

/-- Settles O19: each skip moves PC by its comparison of `V[x]` with `kk`. -/
theorem skipsCompareRegisterWithConstant : Obligations.SkipsCompareRegisterWithConstant := by
  unfold Obligations.SkipsCompareRegisterWithConstant
  intro s x kk
  refine ⟨decodesTo_of_encode_wordXKK (op := 0x3) rfl rfl, decodesTo_of_encode_wordXKK (op := 0x4) rfl rfl, ?_, ?_⟩
  · exact ⟨s.skipIf (s.getV x == kk), rfl, onlyPc_skipIf s _, pcMoves_skipIf_eq s (s.getV x) kk⟩
  · exact ⟨s.skipIf (s.getV x != kk), rfl, onlyPc_skipIf s _, pcMoves_skipIf_ne s (s.getV x) kk⟩

end Sys2Proof.Machine
end

section
/-! PROOFS. The loads and the ALU operations (41_alu.md): the words of format XYN by their number, and what an operation that ends
in `State.result` changes. -/

namespace Sys2Proof.Machine

/-! ### The word of an instruction decodes to it (rules R91, R92) -/

theorem decodesTo_of_encode_wordXYN {i : Instr} {op : Nibble} {x y : RegIdx} {n : Nibble} (hwf : i.wellFormed = true)
    (hi : encode i = wordXYN op x y n) :
    DecodesTo (op.toNat * 4096 + n.toNat + 256 * x.toNat + 16 * y.toNat) i :=
  decodesTo_of_encode hwf (by rw [hi, wordXYN_toNat]; omega)

/-! ### The end of an operation that sets no flag (rule R130) -/

theorem pcMoves_result (s : State) (x : RegIdx) (b : Byte) : PcMoves 2 s (s.result x b) := next_toNat s

theorem getV_result_self (s : State) (x : RegIdx) (b : Byte) : (s.result x b).getV x = b := by
  rw [getV_result, if_pos rfl]

/-- VF is among the registers kept, unless it is the destination. -/
theorem onlyRegsAndPc_result (s : State) (x : RegIdx) (b : Byte) : OnlyRegsAndPc [x] s (s.result x b) := by
  refine ⟨rfl, fun r hr => ?_⟩
  rw [getV_result, if_neg (List.ne_of_not_mem_cons hr)]

/-! ### The statements -/

/-- Settles O8: each of the three ends in `State.result`, and differs only in the byte it hands on. -/
theorem loadsAndAddKWriteOneRegister : Obligations.LoadsAndAddKWriteOneRegister := by
  unfold Obligations.LoadsAndAddKWriteOneRegister
  intro s x y kk
  refine ⟨decodesTo_of_encode_wordXKK (op := 0x6) rfl rfl, decodesTo_of_encode_wordXKK (op := 0x7) rfl rfl,
    decodesTo_of_encode_wordXYN (op := 0x8) (n := 0x0) rfl rfl, ?_, ?_, ?_⟩
  · exact ⟨s.result x kk, rfl, onlyRegsAndPc_result .., pcMoves_result .., getV_result_self ..⟩
  · refine ⟨s.result x (s.getV x + kk), rfl, onlyRegsAndPc_result .., pcMoves_result .., ?_⟩
    rw [getV_result_self]
    exact BitVec.toNat_add (s.getV x) kk
  · exact ⟨s.result x (s.getV y), rfl, onlyRegsAndPc_result .., pcMoves_result .., getV_result_self ..⟩

end Sys2Proof.Machine
end

section
/-! PROOFS. StoreI, StoreBCD and the block transfers (42_index_memory.md): what each answers when its addresses lie inside memory,
and the one fatal condition of every access that leaves it. -/

namespace Sys2Proof.Machine

/-! ### The words of family F, by their number (rule R83) -/

theorem wordXKK_F_toNat (x : RegIdx) (kk : Byte) : (wordXKK 0xF x kk).toNat = 0xF000 + kk.toNat + 256 * x.toNat := by
  rw [wordXKK_toNat, show BitVec.toNat (0xF : Nibble) = 15 from rfl]
  omega

theorem encode_storeBCD_toNat (x : RegIdx) : (encode (.storeBCD x)).toNat = 0xF033 + 256 * x.toNat :=
  wordXKK_F_toNat x 0x33

theorem encode_storeRegisters_toNat (x : RegIdx) : (encode (.storeRegisters x)).toNat = 0xF055 + 256 * x.toNat :=
  wordXKK_F_toNat x 0x55

theorem encode_loadRegisters_toNat (x : RegIdx) : (encode (.loadRegisters x)).toNat = 0xF065 + 256 * x.toNat :=
  wordXKK_F_toNat x 0x65

/-! ### The bounds check of an instruction (rules R61, R180, R183) -/

theorem ifInside_of_le (s : State) (kind : AccessKind) (op : Option Word) {a n : Nat} (ok : State)
    (h : a + n ≤ Config.memSize) : s.ifInside kind op a n ok = ok := by
  rw [State.ifInside, firstOutside_eq_none.2 (.inr h)]

/-- An instruction with a bounds check raises no other condition (rule R180). -/
theorem cause_of_accessOf {s : State} {i : Instr} {c : Cause} {access : AccessKind × Nat}
    (hi : accessOf i = some access) (hc : RaisesWhen s i c) : c = .memoryOutOfBounds := by
  rcases hc with ⟨_, ⟨nnn, rfl⟩, _⟩ | ⟨_, rfl, _⟩ | ⟨hmem, _⟩ | ⟨_, ⟨nnn, rfl⟩ | ⟨w, rfl⟩, _⟩
  case inr.inr.inl => exact hmem
  all_goals cases hi

/-- An access that leaves memory is fatal: it does nothing but record its lowest address outside. -/
theorem exec_outside {s : State} {i : Instr} {kind : AccessKind} {n : Nat} {w : Word} (hi : accessOf i = some (kind, n))
    (hw : encode i = w) (h : RaisesWhen s i .memoryOutOfBounds) :
    ∃ t a, exec i s = .next t ∧ LowestOutside s.i.toNat n a ∧
      FatalEntry s t .memoryOutOfBounds (some w) (some ⟨kind, a⟩) := by
  obtain ⟨t, hexec, ⟨c, info, ⟨hc, ht, _⟩, hinfo⟩ | ⟨hno, _⟩⟩ := exec_ends i s
  · obtain rfl := cause_of_accessOf hi hc
    obtain ⟨kind', n', a, hi', ha, rfl⟩ := hinfo rfl
    cases hi.symm.trans hi'
    subst hw ht
    exact ⟨_, a, hexec, ha, fatalEntry_raise ..⟩
  · exact absurd h (hno _)

theorem storeBCD_raises {s : State} {x : RegIdx} (h : s.i.toNat + 2 ≥ 4096) :
    RaisesWhen s (.storeBCD x) .memoryOutOfBounds :=
  .inr (.inr (.inl ⟨rfl, .inr (.inl ⟨x, rfl, h⟩)⟩))

theorem blockTransfer_raises {s : State} {i : Instr} {x : RegIdx} (hi : i = .storeRegisters x ∨ i = .loadRegisters x)
    (h : s.i.toNat + x.toNat ≥ 4096) : RaisesWhen s i .memoryOutOfBounds :=
  .inr (.inr (.inl ⟨rfl, .inr (.inr ⟨x, hi, h⟩)⟩))

/-! ### The three instructions inside memory (rules R154, R155, R156) -/

theorem exec_storeBCD_inside {s : State} (x : RegIdx) (h : s.i.toNat + 2 < 4096) :
    exec (.storeBCD x) s = .next (s.setMem (s.mem.writeBytes s.i.toNat (bcdDigits (s.getV x)))).advance :=
  congrArg Host.Outcome.next (ifInside_of_le s _ _ _ h)

theorem exec_storeRegisters_inside {s : State} (x : RegIdx) (h : s.i.toNat + x.toNat < 4096) :
    exec (.storeRegisters x) s = .next
      ((s.setMem (s.mem.writeBytes s.i.toNat (s.registerBlock x))).setI (s.indexAfterBlock x)).advance :=
  congrArg Host.Outcome.next (ifInside_of_le s _ _ _ h)

theorem exec_loadRegisters_inside {s : State} (x : RegIdx) (h : s.i.toNat + x.toNat < 4096) :
    exec (.loadRegisters x) s = .next
      (({ s with v := s.loadedRegisters x } : State).setI (s.indexAfterBlock x)).advance :=
  congrArg Host.Outcome.next (ifInside_of_le s _ _ _ h)

/-! ### A run of bytes read back (rules R63, R65, R66) -/

theorem read_writeBytes_inside {m : Memory} {a j : Nat} {bs : List Byte} (hw : m.wf = true)
    (ha : a + bs.length ≤ Config.memSize) (hj : j < bs.length) : (m.writeBytes a bs).read (a + j) = bs[j] := by
  rw [read_writeBytes a (a + j) bs hw ha, dif_pos (by omega)]
  simp only [Nat.add_sub_cancel_left]

theorem read_writeBytes_outside {m : Memory} {a c : Nat} {bs : List Byte} (hw : m.wf = true)
    (ha : a + bs.length ≤ Config.memSize) (hc : c < a ∨ a + bs.length ≤ c) :
    (m.writeBytes a bs).read c = m.read c := by
  rw [read_writeBytes a c bs hw ha, dif_neg (by omega)]

/-! ### What the transfers move (rules R85, R154 to R156) -/

theorem bcdDigits_length (b : Byte) : (bcdDigits b).length = 3 := rfl

theorem bcdDigits_toNat (b : Byte) {j : Nat} (hj : j < (bcdDigits b).length) :
    (bcdDigits b)[j].toNat = b.toNat / 10 ^ (2 - j) % 10 := by
  have := b.isLt
  rw [bcdDigits_length] at hj
  interval_cases j
  all_goals
    simp only [bcdDigits, List.getElem_cons_zero, List.getElem_cons_succ, BitVec.toNat_ofNat]
    omega

/-- The digit for `10 ^ (2 - j)` is the byte stored `j` addresses on. -/
theorem read_writeBytes_bcdDigits {m : Memory} {a j : Nat} (b : Byte) (hw : m.wf = true) (ha : a + 3 ≤ Config.memSize)
    (hj : j < 3) : ((m.writeBytes a (bcdDigits b)).read (a + j)).toNat = b.toNat / 10 ^ (2 - j) % 10 :=
  (congrArg BitVec.toNat (read_writeBytes_inside hw ha hj)).trans (bcdDigits_toNat b hj)

theorem registerBlock_length (s : State) (x : RegIdx) : (s.registerBlock x).length = x.toNat + 1 := by
  rw [State.registerBlock, List.length_take, Vector.length_toList, blockCount]
  omega

theorem registerBlock_getElem (s : State) {x r : RegIdx} (h : r.toNat < (s.registerBlock x).length) :
    (s.registerBlock x)[r.toNat] = s.getV r := by
  simp [State.registerBlock, State.getV]

theorem loadedRegisters_getElem (s : State) (x r : RegIdx) :
    (s.loadedRegisters x)[r.toNat] = if r.toNat ≤ x.toNat then s.byteAt (s.i.toNat + r.toNat) else s.getV r :=
  Vector.getElem_ofFn ..

theorem indexAfterBlock_toNat (s : State) (x : RegIdx) :
    (s.indexAfterBlock x).toNat = (s.i.toNat + x.toNat + 1) % 65536 := by
  rw [State.indexAfterBlock, blockCount, BitVec.toNat_add, BitVec.toNat_ofNat]
  omega

/-! ### The statements -/

/-- Settles O25: the digits are a run of three bytes stored at I. -/
theorem storeBCDWritesThreeDigits : Obligations.StoreBCDWritesThreeDigits := by
  unfold Obligations.StoreBCDWritesThreeDigits
  intro s x hmem
  refine ⟨decodesTo_of_encode rfl (encode_storeBCD_toNat x), fun hin => ?_, fun hout => ?_⟩
  · have digit (j : Nat) (hj : j < 3) := read_writeBytes_bcdDigits (s.getV x) hmem hin hj
    have hbyte := (s.getV x).isLt
    refine ⟨_, exec_storeBCD_inside x hin, rfl, next_toNat s, (digit 0 (by decide)).trans (by omega),
      digit 1 (by decide), (digit 2 (by decide)).trans (by omega), fun a ha => ?_⟩
    exact read_writeBytes_outside (bs := bcdDigits (s.getV x)) hmem hin ha
  · exact exec_outside rfl (encode_eq_ofNat (encode_storeBCD_toNat x)) (storeBCD_raises hout)

/-- Settles O26: the registers are a run of `x + 1` bytes stored at I. -/
theorem storeRegistersFillsMemory : Obligations.StoreRegistersFillsMemory := by
  unfold Obligations.StoreRegistersFillsMemory
  intro s x hmem
  refine ⟨decodesTo_of_encode rfl (encode_storeRegisters_toNat x), fun hin => ?_, fun hout => ?_⟩
  · have hlen := registerBlock_length s x
    have hfits : s.i.toNat + (s.registerBlock x).length ≤ Config.memSize := by rw [hlen]; exact hin
    refine ⟨_, exec_storeRegisters_inside x hin, rfl, next_toNat s, indexAfterBlock_toNat s x, fun r hr => ?_,
      fun a ha => read_writeBytes_outside hmem hfits (by omega)⟩
    exact (read_writeBytes_inside hmem hfits (by omega)).trans (registerBlock_getElem s (by omega))
  · exact exec_outside rfl (encode_eq_ofNat (encode_storeRegisters_toNat x)) (blockTransfer_raises (.inl rfl) hout)

/-- Settles O23: the address is zero-extended into I. -/
theorem storeILoadsTheAddress : Obligations.StoreILoadsTheAddress := by
  unfold Obligations.StoreILoadsTheAddress
  intro s nnn
  exact ⟨decodesTo_of_encode rfl (wordNNN_toNat 0xA nnn), (s.setI (zext16 nnn)).advance, rfl, rfl, next_toNat s,
    zext16_toNat nnn⟩

/-- Settles O27, by whether a register is among the `x + 1` loaded. -/
theorem loadRegistersReadsMemory : Obligations.LoadRegistersReadsMemory := by
  unfold Obligations.LoadRegistersReadsMemory
  intro s x
  refine ⟨decodesTo_of_encode rfl (encode_loadRegisters_toNat x), fun hin => ?_, fun hout => ?_⟩
  · refine ⟨_, exec_loadRegisters_inside x hin, rfl, next_toNat s, indexAfterBlock_toNat s x, fun r hr => ?_,
      fun r hr => ?_⟩
    · exact (loadedRegisters_getElem s x r).trans (if_pos hr)
    · exact (loadedRegisters_getElem s x r).trans (if_neg (by omega))
  · exact exec_outside rfl (encode_eq_ofNat (encode_loadRegisters_toNat x)) (blockTransfer_raises (.inr rfl) hout)

end Sys2Proof.Machine
end

section
/-! PROOFS. ClearDisplay and the timer instructions (43_display_keys_timers.md). -/

namespace Sys2Proof.Machine

/-! ### The cleared framebuffer and the tone (rules R160, R200) -/

theorem getElem_replicate_replicate_false (r : Fin 32) (c : Fin 64) :
    (Vector.replicate 32 (Vector.replicate 64 false))[r][c] = false := by
  simp only [Fin.getElem_fin, Vector.getElem_replicate]

theorem toneOn_iff (s : State) : s.toneOn = true ↔ s.st.toNat ≠ 0 := by
  rw [State.toneOn, State.sampleSound, bne_iff_ne, ne_eq, ← BitVec.toNat_inj]
  rfl

/-! ### The statements -/

/-- Settles O30: the framebuffer is replaced by rows of unset bits. -/
theorem clearDisplayUnsetsEveryBit : Obligations.ClearDisplayUnsetsEveryBit := by
  unfold Obligations.ClearDisplayUnsetsEveryBit
  intro s
  exact ⟨decodesTo_of_encode (i := .clearDisplay) rfl rfl, (s.setFb _).advance, rfl, rfl, next_toNat s,
    getElem_replicate_replicate_false⟩

/-- Settles O35: DT is read through `State.result`; the two writes replace one timer, and the tone follows ST. -/
theorem timerInstructionsReadAndWrite : Obligations.TimerInstructionsReadAndWrite := by
  unfold Obligations.TimerInstructionsReadAndWrite
  intro s x
  refine ⟨decodesTo_of_encode rfl (wordXKK_F_toNat x 0x07), decodesTo_of_encode rfl (wordXKK_F_toNat x 0x15),
    decodesTo_of_encode rfl (wordXKK_F_toNat x 0x18), ?_, ?_, ?_⟩
  · exact ⟨s.result x s.dt, rfl, onlyRegsAndPc_result .., pcMoves_result .., getV_result_self ..⟩
  · exact ⟨(s.setDt (s.getV x)).advance, rfl, rfl, next_toNat s, rfl⟩
  · exact ⟨(s.setSt (s.getV x)).advance, rfl, rfl, next_toNat s, rfl, toneOn_iff _⟩

end Sys2Proof.Machine
end

section
/-! PROOFS. Fatal conditions (60_exceptions.md): which condition an instruction raises, and what a FAULTED core keeps. -/

namespace Sys2Proof.Machine

/-! ### The condition an instruction raises (rule R180) -/

/-- An instruction stands in one row of the table only, but for `Sys` and `Invalid`, which share theirs. -/
theorem cause_unique {s : State} {i : Instr} {c c' : Cause} (h : RaisesWhen s i c) (h' : RaisesWhen s i c') : c = c' := by
  rcases h with ⟨rfl, ⟨nnn, rfl⟩, -⟩ | ⟨rfl, rfl, -⟩ |
    ⟨rfl, ⟨x, y, n, rfl, -⟩ | ⟨x, rfl, -⟩ | ⟨x, rfl | rfl, -⟩⟩ | ⟨rfl, ⟨nnn, rfl⟩ | ⟨w, rfl⟩, -⟩
  all_goals
    simp only [RaisesWhen, reduceCtorEq, exists_false, false_and, and_false, or_false, false_or] at h'
    exact h'.1.symm

/-- The state a step answers is FAULTED with the cause `c`. -/
def FaultsWith (o : Host.Outcome State Fault Refusal) (c : Cause) : Prop :=
  ∃ t d, o = .next t ∧ t.status = .faulted d ∧ d.cause = c

theorem faultsWith_raise_iff (s : State) (c c' : Cause) (w : Option Word) (info : Option FaultInfo) :
    FaultsWith (.next (s.raise c w info)) c' ↔ c' = c := by
  constructor
  · rintro ⟨_, _, ⟨⟩, ⟨⟩, rfl⟩
    rfl
  · rintro rfl
    exact ⟨_, _, rfl, rfl, rfl⟩

theorem not_faultsWith_of_live {t : State} (h : t.live = true) (c : Cause) : ¬FaultsWith (.next t) c := by
  rintro ⟨_, _, ⟨⟩, hstatus, _⟩
  simp [State.live, hstatus] at h

/-- Once fetched, an instruction of a running core raises exactly what the table lists for it. -/
theorem exec_faultsWith_iff {s : State} (i : Instr) (c : Cause) (hrun : s.status = .running) :
    FaultsWith (exec i s) c ↔ RaisesWhen s i c := by
  obtain ⟨t, hexec, -⟩ := exec_ends i s
  rw [hexec]
  rcases exec_ends_of_running hexec hrun with ⟨c', info, ⟨hraises, rfl, -⟩, -⟩ | ⟨hnone, hend⟩
  · rw [faultsWith_raise_iff]
    exact ⟨fun h => h ▸ hraises, fun h => cause_unique h hraises⟩
  · refine iff_of_false (not_faultsWith_of_live ?_ c) (hnone c)
    rcases hend with hstatus | ⟨x, -, rfl⟩
    · simp [State.live, hstatus]
    · rfl

/-! ### The steps a FAULTED core takes (rule R185) -/

/-- Without a wait to complete, a key-press event only sets the key. -/
theorem keyDown_of_faulted {s : State} {d : Diagnostic} (k : Nibble) (h : s.status = .faulted d) :
    s.keyDown k = { s with keys := (s.keyDown k).keys } := by
  have hwait : (s.setKey k true).completeWait k = s.setKey k true := by simp only [State.completeWait, setKey_status, h]
  unfold State.keyDown
  split
  · rfl
  · rw [hwait]
    rfl

theorem runAgent_of_faulted {a : AgentStep} {s t : State} {d : Diagnostic} (hfault : s.status = .faulted d)
    (hstep : runAgent a s = .next t) :
    (∃ image, a = .reset image ∧ t.status = .running) ∨ t = { s with dt := t.dt, st := t.st, keys := t.keys } := by
  cases a with
  | reset image =>
    rw [runAgent] at hstep
    split at hstep
    · cases hstep
      exact .inl ⟨image, rfl, rfl⟩
    · cases hstep
  | engine =>
    rw [runAgent, hfault] at hstep
    cases hstep
    exact .inr rfl
  | keyDown k =>
    cases hstep
    exact .inr (by rw [keyDown_of_faulted k hfault])
  | tick | keyUp | sampleFramebuffer | sampleSound | readStatus =>
    cases hstep
    exact .inr rfl

/-! ### The statements -/

/-- Settles O37: the fetch comes first; an opcode inside memory raises what its instruction does. -/
theorem fatalExactlyWhenListed : Obligations.FatalExactlyWhenListed := by
  unfold Obligations.FatalExactlyWhenListed
  intro s c hrun hagenda
  change FaultsWith (step s) c ↔ _
  by_cases hpc : s.pc.toNat + 1 < 4096
  · rw [step_executes hagenda hrun hpc, exec_faultsWith_iff _ c hrun]
    have hin : ¬s.pc.toNat + 1 ≥ 4096 := Nat.not_le.2 hpc
    simp only [hpc, hin, and_false, false_or, true_and]
  · rcases engineStep_cases s with ⟨hin, -⟩ | ⟨-, hfetch⟩
    · exact absurd hin hpc
    · rw [step_running hagenda hrun, hfetch, faultsWith_raise_iff]
      simp only [hpc, Nat.not_lt.1 hpc, and_true, false_and, or_false]

/-- Settles O39, by the agent whose step is scheduled: with none the engine has no step. -/
theorem onlyResetLeavesFaulted : Obligations.OnlyResetLeavesFaulted := by
  unfold Obligations.OnlyResetLeavesFaulted
  intro s t d hfault hstep
  cases hagenda : s.env.agenda with
  | nil =>
    rw [step_unscheduled hagenda, runEngine, hfault] at hstep
    cases hstep
  | cons a rest =>
    rw [step_scheduled hagenda] at hstep
    rcases runAgent_of_faulted (s := s.setAgenda rest) hfault hstep with ⟨image, rfl, hrun⟩ | hkept
    · exact .inl ⟨image, rest, rfl, hrun⟩
    · have henv : t.env = { s.env with agenda := rest } := congrArg State.env hkept
      rw [henv]
      exact .inr hkept

end Sys2Proof.Machine
end

section
/-! PROOFS. Encoding what a word decodes to (rule R92, its second half), the encodings as numbers, and the fields as parts of the
word (rule R81). -/

namespace Sys2Proof

/-! ### A word from the fields its row fixes -/

theorem wordNNN_of_op {w : Word} {op : Nibble} (h : fieldOp w = op) : wordNNN op (fieldNNN w) = w :=
  h ▸ wordNNN_fields w

theorem wordXKK_of_op {w : Word} {op : Nibble} (h : fieldOp w = op) : wordXKK op (fieldX w) (fieldKK w) = w :=
  h ▸ wordXKK_fields w

theorem wordXKK_of_op_kk {w : Word} {op : Nibble} {kk : Byte} (h : fieldOp w = op) (hkk : fieldKK w = kk) :
    wordXKK op (fieldX w) kk = w :=
  hkk ▸ wordXKK_of_op h

theorem wordXYN_of_op_n {w : Word} {op n : Nibble} (h : fieldOp w = op) (hn : fieldN w = n) :
    wordXYN op (fieldX w) (fieldY w) n = w :=
  h ▸ hn ▸ wordXYN_fields w

/-! ### Encoding the decoded instruction, family by family -/

theorem encode_decodeFamily0 {w : Word} (h : fieldOp w = 0x0#4) : encode (decodeFamily0 w) = w := by
  unfold decodeFamily0
  split_ifs with hE0 hEE
  · exact hE0.symm
  · exact hEE.symm
  · exact wordNNN_of_op h

theorem encode_decodeFamily8 {w : Word} (h : fieldOp w = 0x8#4) : encode (decodeFamily8 w) = w := by
  unfold decodeFamily8
  split
  case h_10 => rfl
  all_goals exact wordXYN_of_op_n h ‹_›

theorem encode_decodeFamilyE {w : Word} (h : fieldOp w = 0xE#4) : encode (decodeFamilyE w) = w := by
  unfold decodeFamilyE
  split
  case h_3 => rfl
  all_goals exact wordXKK_of_op_kk h ‹_›

theorem encode_decodeFamilyF {w : Word} (h : fieldOp w = 0xF#4) : encode (decodeFamilyF w) = w := by
  unfold decodeFamilyF
  split
  case h_10 => rfl
  all_goals exact wordXKK_of_op_kk h ‹_›

theorem decode_of_op_five {w : Word} (h : fieldOp w = 0x5#4) : decode w = .skipEqual (fieldX w) (fieldY w) := by
  simp [decode, h]

theorem decode_of_op_nine {w : Word} (h : fieldOp w = 0x9#4) : decode w = .skipNotEqual (fieldX w) (fieldY w) := by
  simp [decode, h]

/-- Outside families 5 and 9 every word is the canonical encoding of what it decodes to. -/
theorem encode_decode {w : Word} (h5 : fieldOp w ≠ 0x5#4) (h9 : fieldOp w ≠ 0x9#4) : encode (decode w) = w := by
  unfold decode
  split
  case h_1 h => exact encode_decodeFamily0 h
  case h_2 h | h_3 h | h_11 h | h_12 h => exact wordNNN_of_op h
  case h_4 h | h_5 h | h_7 h | h_8 h | h_13 h => exact wordXKK_of_op h
  case h_6 h => exact absurd h h5
  case h_9 h => exact encode_decodeFamily8 h
  case h_10 h => exact absurd h h9
  case h_14 h => exact wordXYN_of_op_n h rfl
  case h_15 h => exact encode_decodeFamilyE h
  case h_16 => exact encode_decodeFamilyF (eq_fifteen_of_not_mem _ (by simp_all))

/-- In families 5 and 9 the canonical encoding has the low nibble 0 (decision D33). -/
theorem encode_decode_of_alias {w : Word} (h : fieldOp w = 0x5#4 ∨ fieldOp w = 0x9#4) :
    encode (decode w) = wordXYN (fieldOp w) (fieldX w) (fieldY w) 0x0 := by
  rcases h with h | h
  · rw [decode_of_op_five h, h]; rfl
  · rw [decode_of_op_nine h, h]; rfl

/-- The encoding as a number, for every word. -/
theorem encode_decode_toNat (w : Word) : (encode (decode w)).toNat =
    if w.toNat / 4096 = 5 ∨ w.toNat / 4096 = 9 then w.toNat / 16 * 16 else w.toNat := by
  have hop (op : Nibble) : fieldOp w = op ↔ w.toNat / 4096 = op.toNat := by rw [← fieldOp_toNat, BitVec.toNat_inj]
  have halias : fieldOp w = 0x5#4 ∨ fieldOp w = 0x9#4 ↔ w.toNat / 4096 = 5 ∨ w.toNat / 4096 = 9 := or_congr (hop _) (hop _)
  by_cases h : fieldOp w = 0x5#4 ∨ fieldOp w = 0x9#4
  · rw [if_pos (halias.mp h), encode_decode_of_alias h, wordXYN_toNat, fieldOp_toNat, fieldX_toNat, fieldY_toNat,
      show BitVec.toNat (0x0 : Nibble) = 0 from rfl]
    omega
  · obtain ⟨h5, h9⟩ := not_or.mp h
    rw [if_neg (halias.not.mp h), encode_decode h5 h9]

/-! ### Decoded instructions are well formed (rules R86, R90) -/

theorem fieldNNN_ne_of_ne_wordNNN {w : Word} {op : Nibble} {nnn : Address} (h : fieldOp w = op) (hw : w ≠ wordNNN op nnn) :
    fieldNNN w ≠ nnn :=
  fun hnnn => hw (hnnn ▸ (wordNNN_of_op h).symm)

theorem wellFormed_decode (w : Word) : (decode w).wellFormed = true := by
  cases hd : decode w with
  | sys nnn =>
    obtain ⟨hop, hE0, hEE⟩ := (row_decode_eq_3_iff w).mp (by rw [hd, Instr.row])
    have hnnn : fieldNNN w = nnn := Instr.sys.inj ((decode_eq_sys hop hE0 hEE).symm.trans hd)
    have h1 : nnn ≠ 0x0E0 := hnnn ▸ fieldNNN_ne_of_ne_wordNNN hop hE0
    have h2 : nnn ≠ 0x0EE := hnnn ▸ fieldNNN_ne_of_ne_wordNNN hop hEE
    simpa [Instr.wellFormed] using And.intro h1 h2
  | invalid v =>
    obtain ⟨rfl, hinv⟩ := (decode_eq_invalid_iff w v).mp hd
    exact hinv
  | _ => rfl

/-! ### The statements -/

/-- Settles O2, by the family nibble: only families 5 and 9 do not keep every part of the word. -/
theorem encodeOfDecodeClearsAliasNibble : Obligations.EncodeOfDecodeClearsAliasNibble := by
  unfold Obligations.EncodeOfDecodeClearsAliasNibble
  exact fun w => ⟨wellFormed_decode w, encode_decode_toNat w⟩

/-- Settles O3: each encoding is of one of the three formats, whose numbers are known. -/
theorem encodeIsMatchPlusFields : Obligations.EncodeIsMatchPlusFields := by
  unfold Obligations.EncodeIsMatchPlusFields
  intro x y n kk nnn w
  simp only [encode, wordNNN_toNat, wordXKK_toNat, wordXYN_toNat, BitVec.ofNat_eq_ofNat, BitVec.toNat_ofNat,
    true_and, and_true]
  and_intros
  all_goals omega

/-- Settles O6: each field is a quotient or remainder of the word's number. -/
theorem fieldsAreThePartsOfTheWord : Obligations.FieldsAreThePartsOfTheWord := by
  unfold Obligations.FieldsAreThePartsOfTheWord
  intro w
  rw [fieldOp_toNat, fieldX_toNat, fieldY_toNat, fieldN_toNat, fieldKK_toNat, fieldNNN_toNat]
  omega

/-- Settles O7, by running the decoder on each word. -/
theorem writtenOutWordsDecode : Obligations.WrittenOutWordsDecode := by
  unfold Obligations.WrittenOutWordsDecode
  decide

end Sys2Proof
end

section
/-! PROOFS. What each instruction can change (rule R39), said once as `Kept`: the end of every meaning keeps what its instruction does
not write, and every frame statement follows. -/

namespace Sys2Proof.Machine

/-! ### The frame of one instruction -/

/-- What instruction `i` keeps from `s` to `t`: every part of the state that its row of rule R39 does not list as written, and in
memory every byte outside the stored ones. A state update keeps a part it does not name by computation, so only the parts it
writes are argued for. -/
structure Kept (i : Instr) (s t : State) : Prop where
  regs   : ∀ r, r ∉ i.destinations → (i.setsFlag = true → r ≠ vf) → t.getV r = s.getV r := by intros; rfl
  index  : i.row ∉ [21, 31, 32, 34, 35] → t.i = s.i := by intros; rfl
  stack  : i.row ≠ 5 → t.stack = s.stack := by intros; rfl
  sp     : i.row ≠ 5 → i.row ≠ 2 → t.sp = s.sp := by intros; rfl
  dt     : i.row ≠ 29 → t.dt = s.dt := by intros; rfl
  st     : i.row ≠ 30 → t.st = s.st := by intros; rfl
  fb     : i.row ≠ 1 → i.row ≠ 24 → t.fb = s.fb := by intros; rfl
  keys   : t.keys = s.keys := by rfl
  mem    : t.mem = s.mem ∨ ∃ bs : List Byte, bs.length = i.storedCount ∧ s.i.toNat + bs.length ≤ Config.memSize ∧
    t.mem = s.mem.writeBytes s.i.toNat bs := by exact .inl rfl
  env    : i.row ≠ 23 → t.env = s.env := by intros; rfl
  params : t.env.params = s.env.params := by rfl
  agenda : t.env.agenda = s.env.agenda := by rfl

/-! ### Call and Return, inverted -/

/-- Everything Return can answer (rule R112). -/
theorem exec_ret_cases {s t : State} (h : exec .ret s = .next t) :
    (∃ _ : 0 < s.sp.val, t = { s with pc := s.stack[s.sp.val - 1], sp := ⟨s.sp.val - 1, by omega⟩ }) ∨
    (s.sp.val = 0 ∧ t = s.raise .stackUnderflow (some (encode .ret)) none) := by
  rcases Nat.eq_zero_or_pos s.sp.val with hempty | hpos
  · exact .inr ⟨hempty, (Host.Outcome.next.inj ((exec_ret_of_empty hempty).symm.trans h)).symm⟩
  · exact .inl ⟨hpos, (Host.Outcome.next.inj ((exec_ret_of_pos hpos).symm.trans h)).symm⟩

/-- Everything Call can answer (rule R114). -/
theorem exec_call_cases {nnn : Address} {s t : State} (h : exec (.call nnn) s = .next t) :
    (∃ hlt : s.sp.val < 16, t =
      { s with pc := zext16 nnn, sp := ⟨s.sp.val + 1, by omega⟩, stack := s.stack.set s.sp.val s.next hlt }) ∨
    (s.sp.val = 16 ∧ t = s.raise .stackOverflow (some (encode (.call nnn))) none) := by
  rcases Nat.lt_or_eq_of_le (Nat.le_of_lt_succ s.sp.isLt) with hlt | hfull
  · exact .inl ⟨hlt, (Host.Outcome.next.inj ((exec_call_of_lt nnn hlt).symm.trans h)).symm⟩
  · exact .inr ⟨hfull, (Host.Outcome.next.inj ((exec_call_of_full nnn hfull).symm.trans h)).symm⟩

/-! ### How the meanings end -/

section
variable {i : Instr} {s : State}

theorem kept_raise (c : Cause) (w : Option Word) (info : Option FaultInfo) : Kept i s (s.raise c w info) := {}

theorem kept_setPc (a : Word) : Kept i s (s.setPc a) := {}

theorem kept_setStatus (q : Status) : Kept i s (s.setStatus q) := {}

theorem kept_result {x : RegIdx} (hx : x ∈ i.destinations) (b : Byte) : Kept i s (s.result x b) where
  regs r hr _ := by rw [getV_result, if_neg (ne_of_mem_of_not_mem hx hr).symm]

theorem kept_resultThenFlag {x : RegIdx} (hx : x ∈ i.destinations) (hflag : i.setsFlag = true) (b f : Byte) :
    Kept i s (s.resultThenFlag x b f) where
  regs r hr hvf := by rw [getV_resultThenFlag, if_neg (hvf hflag), if_neg (ne_of_mem_of_not_mem hx hr).symm]

theorem kept_setI (hi : i.row ∈ [21, 31, 32, 34, 35]) (a : Word) : Kept i s (s.setI a).advance where
  index h := absurd hi h

theorem kept_setDt (hi : i.row = 29) (b : Byte) : Kept i s (s.setDt b).advance where
  dt h := absurd hi h

theorem kept_setSt (hi : i.row = 30) (b : Byte) : Kept i s (s.setSt b).advance where
  st h := absurd hi h

theorem kept_setFb (hi : i.row = 1) (fb : Framebuffer) : Kept i s (s.setFb fb).advance where
  fb h := absurd hi h

theorem kept_ret {t : State} (h : exec .ret s = .next t) : Kept .ret s t := by
  rcases exec_ret_cases h with ⟨_, rfl⟩ | ⟨_, rfl⟩
  · exact { sp := fun _ h => absurd rfl h }
  · exact kept_raise ..

theorem kept_call {nnn : Address} {t : State} (h : exec (.call nnn) s = .next t) : Kept (.call nnn) s t := by
  rcases exec_call_cases h with ⟨_, rfl⟩ | ⟨_, rfl⟩
  · exact { stack := fun h => absurd rfl h, sp := fun h => absurd rfl h }
  · exact kept_raise ..

theorem kept_invalidOpcode (w : Word) : Kept i s (s.invalidOpcode w) := by
  rcases invalidOpcode_cases s w with ⟨_, h⟩ | ⟨_, h⟩
  · rw [h]
    exact kept_raise ..
  · rw [h]
    exact kept_setPc _

/-- A draw of the random source touches nothing but that source. -/
theorem drawByte_state (s : State) : ∃ e : Environment, s.drawByte.2 = { s with env := e } ∧ e.params = s.env.params ∧
    e.agenda = s.env.agenda := by
  rcases drawByte_cases s with ⟨r, rest, _, h⟩ | ⟨_, h⟩
  · exact ⟨_, congrArg Prod.snd h, rfl, rfl⟩
  · exact ⟨_, congrArg Prod.snd h, rfl, rfl⟩

theorem kept_random (x : RegIdx) (kk b : Byte) : Kept (.random x kk) s (s.drawByte.2.result x b) := by
  obtain ⟨e, h, hparams, hagenda⟩ := drawByte_state s
  rw [h]
  exact
    { regs := fun r hr _ => by rw [getV_result, if_neg (List.ne_of_not_mem_cons hr)]; rfl
      env := fun h => absurd rfl h
      params := hparams
      agenda := hagenda }

/-- A bounds check keeps what its instruction keeps when it passes. -/
theorem kept_ifInside {kind : AccessKind} {w : Option Word} {a n : Nat} {ok : State}
    (h : n = 0 ∨ a + n ≤ Config.memSize → Kept i s ok) : Kept i s (s.ifInside kind w a n ok) := by
  rcases ifInside_cases s kind w a n ok with ⟨hin, hok⟩ | ⟨_, _, hraise⟩
  · rw [hok]
    exact h hin
  · rw [hraise]
    exact kept_raise ..

theorem kept_drawn (x y : RegIdx) (n : Nibble) (fb : Framebuffer) (f : Byte) :
    Kept (.draw x y n) s ((s.setFb fb).setV vf f).advance where
  regs r _ hr := (getV_setV_of_ne (s.setFb fb) f (hr rfl))
  fb _ h := absurd rfl h

theorem kept_storeBCD (x : RegIdx) (b : Byte) (h : s.i.toNat + 3 ≤ Config.memSize) :
    Kept (.storeBCD x) s (s.setMem (s.mem.writeBytes s.i.toNat (bcdDigits b))).advance where
  mem := .inr ⟨bcdDigits b, rfl, h, rfl⟩

theorem kept_storeRegisters (x : RegIdx) (a : Word) (h : s.i.toNat + blockCount x ≤ Config.memSize) :
    Kept (.storeRegisters x) s ((s.setMem (s.mem.writeBytes s.i.toNat (s.registerBlock x))).setI a).advance where
  index h := absurd (by simp [Instr.row]) h
  mem := .inr ⟨s.registerBlock x, registerBlock_length s x, registerBlock_length s x ▸ h, rfl⟩

theorem mem_destinations_loadRegisters {x r : RegIdx} (h : r.toNat ≤ x.toNat) : r ∈ (Instr.loadRegisters x).destinations :=
  List.mem_map.2 ⟨r.toNat, List.mem_range.2 (Nat.lt_succ_of_le h), BitVec.ofNat_toNat ..⟩

theorem kept_block {x : RegIdx} {v : Vector Byte 16} (hv : ∀ r : RegIdx, ¬r.toNat ≤ x.toNat → v[r.toNat] = s.getV r)
    (a : Word) : Kept (.loadRegisters x) s (({ s with v := v } : State).setI a).advance where
  regs r hr _ := hv r fun h => hr (mem_destinations_loadRegisters h)
  index h := absurd (by simp [Instr.row]) h

theorem kept_loadRegisters (x : RegIdx) (a : Word) :
    Kept (.loadRegisters x) s (({ s with v := s.loadedRegisters x } : State).setI a).advance :=
  kept_block (fun r hr => (loadedRegisters_getElem s x r).trans (if_neg hr)) a

end

/-- Every instruction keeps what it does not write, whether it completes, raises or suspends the core. -/
theorem exec_kept {i : Instr} {s t : State} (h : exec i s = .next t) : Kept i s t := by
  cases i <;> cases h
  case ret => exact kept_ret rfl
  case call => exact kept_call rfl
  case jump | jumpOffset => exact kept_setPc _
  case skipEqualK | skipNotEqualK | skipEqual | skipNotEqual | skipKeyPressed | skipKeyNotPressed => exact kept_setPc _
  case sys | invalid => exact kept_invalidOpcode _
  case storeK | addK | store | or | and | xor | readDelayTimer => exact kept_result List.mem_cons_self _
  case add | sub | shiftRight | subReversed | shiftLeft => exact kept_resultThenFlag List.mem_cons_self rfl _ _
  case random x kk => exact kept_random x kk _
  case storeI | addI | glyphAddress => exact kept_setI (by simp [Instr.row]) _
  case storeBCD x => exact kept_ifInside fun hin => kept_storeBCD x _ (hin.resolve_left (by decide))
  case storeRegisters x => exact kept_ifInside fun hin => kept_storeRegisters x _ (hin.resolve_left (Nat.succ_ne_zero _))
  case loadRegisters x => exact kept_ifInside fun _ => kept_loadRegisters x _
  case clearDisplay => exact kept_setFb rfl _
  case draw x y n => exact kept_ifInside fun _ => kept_drawn x y n _ _
  case waitForKeypressAndStore => exact kept_setStatus _
  case setDelayTimer => exact kept_setDt rfl _
  case setSoundTimer => exact kept_setSt rfl _

/-! ### Consequences for whole parts of the state -/

theorem v_eq_of_getV {s t : State} (h : ∀ r, t.getV r = s.getV r) : t.v = s.v :=
  Vector.ext fun j hj => by simpa [State.getV, Nat.mod_eq_of_lt hj] using h (BitVec.ofNat 4 j)

/-- An instruction that names no destination and sets no flag keeps all registers. -/
theorem Kept.v {i : Instr} {s t : State} (h : Kept i s t) (hd : i.destinations = []) (hf : i.setsFlag = false) : t.v = s.v :=
  v_eq_of_getV fun r => h.regs r (by simp [hd]) (by simp [hf])

/-- An instruction that stores nothing keeps memory. -/
theorem Kept.mem_of_storedCount {i : Instr} {s t : State} (h : Kept i s t) (hn : i.storedCount = 0) : t.mem = s.mem := by
  rcases h.mem with h | ⟨bs, hlen, _, h⟩
  · exact h
  · rw [h, List.length_eq_zero_iff.1 (hlen.trans hn)]
    rfl

/-- A byte outside the stored ones is kept. -/
theorem Kept.byteAt {i : Instr} {s t : State} (h : Kept i s t) (hmem : s.MemInv) {a : Nat}
    (ha : a < s.i.toNat ∨ s.i.toNat + i.storedCount ≤ a) : t.byteAt a = s.byteAt a := by
  rcases h.mem with h | ⟨bs, hlen, hin, h⟩
  · rw [State.byteAt, h]
    rfl
  · rw [State.byteAt, h]
    exact read_writeBytes_outside hmem hin (hlen ▸ ha)

theorem Kept.memInv {i : Instr} {s t : State} (h : Kept i s t) (hmem : s.MemInv) : t.MemInv := by
  rcases h.mem with h | ⟨bs, _, _, h⟩
  · rw [State.MemInv, h]
    exact hmem
  · rw [State.MemInv, h]
    exact writeBytes_wf _ bs hmem

/-! ### The statements -/

/-- The rows of control flow and the skips write no register and no memory. -/
theorem control_writes_nothing {i : Instr} (hi : i.row ∈ [2, 3, 4, 5, 6, 7, 8, 20, 22, 25, 26, 36]) :
    i.destinations = [] ∧ i.setsFlag = false ∧ i.storedCount = 0 := by
  cases i <;> simp [Instr.row] at hi <;> exact ⟨rfl, rfl, rfl⟩

/-- After a flag-setting instruction that raised nothing VF is the flag. -/
theorem flag_of_setsFlag {i : Instr} {s t : State} (h : exec i s = .next t) (hflag : i.setsFlag = true) (hlive : t.live = true) :
    t.getV vf = 0 ∨ t.getV vf = 1 := by
  cases i with
  | add | sub | shiftRight | subReversed | shiftLeft =>
    cases h
    rw [getV_resultThenFlag, if_pos rfl]
    exact flagByte_cases _
  | draw x y n =>
    cases h
    rcases ifInside_cases s .spriteRead (some (encode (.draw x y n))) s.indexAddress n.toNat
      ((s.setFb (s.drawn x y n).fb).setV vf (flagByte (s.drawn x y n).collision)).advance with ⟨_, hok⟩ | ⟨_, _, hraise⟩
    · rw [hok, advance_getV, getV_setV_self]
      exact flagByte_cases _
    · rw [hraise] at hlive
      cases hlive
  | _ => cases hflag

/-- Settles O52: VF is kept like any register, and a flag is written as 0 or 1. -/
theorem vfWrittenOnlyAsFlagOrDestination : Obligations.VfWrittenOnlyAsFlagOrDestination := by
  unfold Obligations.VfWrittenOnlyAsFlagOrDestination
  refine fun i s t h => ⟨fun hchanged => ?_, fun hflag _ hlive => flag_of_setsFlag h hflag hlive⟩
  by_contra hno
  obtain ⟨hflag, hdest⟩ := not_or.1 hno
  exact hchanged ((exec_kept h).regs vf hdest fun hf => absurd hf hflag)

/-- Settles O53. -/
theorem registersKeptButDestinations : Obligations.RegistersKeptButDestinations := by
  unfold Obligations.RegistersKeptButDestinations
  exact fun i s t r h => (exec_kept h).regs r

/-- Settles O54: what is stored is a run of bytes from I on. -/
theorem memoryKeptOutsideStoredBytes : Obligations.MemoryKeptOutsideStoredBytes := by
  unfold Obligations.MemoryKeptOutsideStoredBytes
  exact fun i s t a hmem h ha => (exec_kept h).byteAt hmem ha

/-- Settles O55: every ALU operation ends in `State.result` or `State.resultThenFlag`, Random after one draw. -/
theorem aluFamilyTouchesOnlyRegisters : Obligations.AluFamilyTouchesOnlyRegisters := by
  unfold Obligations.AluFamilyTouchesOnlyRegisters
  intro i s hi
  cases i with
  | storeK | addK | store | or | and | xor | add | sub | shiftRight | subReversed | shiftLeft =>
    exact ⟨_, rfl, next_toNat s, rfl, fun _ => rfl, rfl⟩
  | random x kk =>
    obtain ⟨e, hdraw, _, hagenda⟩ := drawByte_state s
    have hexec : exec (.random x kk) s = .next (({ s with env := e } : State).result x (s.drawByte.1 &&& kk)) := by
      rw [← hdraw]
      rfl
    exact ⟨_, hexec, next_toNat s, rfl, fun h => absurd rfl h, hagenda⟩
  | _ => simp [Instr.row] at hi

/-- Settles O56: these rows write no register, no memory and no device. -/
theorem controlFlowTouchesOnlyPcAndStack : Obligations.ControlFlowTouchesOnlyPcAndStack := by
  unfold Obligations.ControlFlowTouchesOnlyPcAndStack
  intro i s t hi h
  have hkept := exec_kept h
  obtain ⟨hdest, hflag, hstored⟩ := control_writes_nothing hi
  refine ⟨?_, hkept.stack, hkept.sp⟩
  have hrow {r : Nat} (hr : r ∉ [2, 3, 4, 5, 6, 7, 8, 20, 22, 25, 26, 36]) : i.row ≠ r := ne_of_mem_of_not_mem hi hr
  rw [← hkept.v hdest hflag, ← hkept.mem_of_storedCount hstored, ← hkept.keys,
    ← hkept.index (by simp at hi ⊢; omega), ← hkept.dt (hrow (by decide)), ← hkept.st (hrow (by decide)),
    ← hkept.fb (hrow (by decide)) (hrow (by decide)), ← hkept.env (hrow (by decide))]

/-- Settles O57. -/
theorem deviceAndIndexFrames : Obligations.DeviceAndIndexFrames := by
  unfold Obligations.DeviceAndIndexFrames
  intro i s t h
  have hkept := exec_kept h
  exact ⟨hkept.keys, hkept.fb, hkept.dt, hkept.st, hkept.index, hkept.stack, hkept.sp, hkept.env⟩

end Sys2Proof.Machine
end

section
/-! PROOFS. What one step of one agent can be (rules R34 to R38, R196), said once as `Moves`, and the two invariants every step
keeps. -/

namespace Sys2Proof.Machine

/-! ### A key-press event (rule R38) -/

theorem keyDown_of_held {s : State} {k : Nibble} (h : s.getKey k = true) : s.keyDown k = s := if_pos h

/-- A key-press event, before it completes a wait. -/
theorem keyDown_of_not_held {s : State} {k : Nibble} (h : s.getKey k = false) :
    s.keyDown k = (s.setKey k true).completeWait k := by
  rw [State.keyDown, h, if_neg Bool.false_ne_true]

theorem keyDown_of_not_waiting {s : State} {k : Nibble} (h : s.getKey k = false) (hwait : ∀ x, s.status ≠ .waitKey x) :
    s.keyDown k = s.setKey k true := by
  rw [keyDown_of_not_held h, State.completeWait, setKey_status]
  cases hs : s.status with
  | waitKey x => exact absurd hs (hwait x)
  | running | faulted => rfl

/-- The state after a key-press event of key `k` while the core waits for register `x` (rule R166). -/
def State.resumed (s : State) (x : RegIdx) (k : Nibble) : State :=
  (((s.setKey k true).setV x (k.setWidth 8)).advance).setStatus .running

theorem keyDown_of_waiting {s : State} {k : Nibble} {x : RegIdx} (h : s.getKey k = false) (hwait : s.status = .waitKey x) :
    s.keyDown k = s.resumed x k := by
  rw [keyDown_of_not_held h, State.completeWait, setKey_status, hwait, State.resumed]

theorem getV_resumed (s : State) (x r : RegIdx) (k : Nibble) :
    (s.resumed x k).getV r = if r = x then k.setWidth 8 else s.getV r :=
  getV_setV (s.setKey k true) x r _

theorem getV_resumed_self_toNat (s : State) (x : RegIdx) (k : Nibble) : ((s.resumed x k).getV x).toNat = k.toNat := by
  rw [getV_resumed, if_pos rfl]
  exact BitVec.toNat_setWidth_of_le (by decide)

theorem regsKeptBut_resumed (s : State) (x : RegIdx) (k : Nibble) : RegsKeptBut [x] s (s.resumed x k) := fun r hr => by
  rw [getV_resumed, if_neg (List.ne_of_not_mem_cons hr)]

theorem getKey_setKey_self (s : State) (k : Nibble) (b : Bool) : (s.setKey k b).getKey k = b := by
  rw [getKey_setKey, if_pos rfl]

theorem getKey_setKey_of_ne (s : State) {k j : Nibble} (b : Bool) (h : j ≠ k) : (s.setKey k b).getKey j = s.getKey j := by
  rw [getKey_setKey, if_neg h]

/-! ### The steps of the agents -/

/-- Agent step `a` takes the machine from `s` to `t`, by what decides how it goes. -/
inductive Moves (s : State) : AgentStep → State → Prop
  | executes {t : State} (hrun : s.status = .running) (hpc : s.pc.toNat + 1 < 4096)
      (hexec : exec (decode (BitVec.ofNat 16 (s.opcodeAt s.pc.toNat))) s = .next t) : Moves s .engine t
  | fetchFaults (hrun : s.status = .running) (hpc : 4096 ≤ s.pc.toNat + 1) :
      Moves s .engine (s.raise .memoryOutOfBounds none (some ⟨.fetch, max s.pc.toNat 4096⟩))
  | passes (hrun : s.status ≠ .running) : Moves s .engine s
  | ticks : Moves s .tick s.tick
  | holds (k : Nibble) (hkey : s.getKey k = true) : Moves s (.keyDown k) s
  | presses (k : Nibble) (hkey : s.getKey k = false) (hwait : ∀ x, s.status ≠ .waitKey x) :
      Moves s (.keyDown k) (s.setKey k true)
  | resumes (k : Nibble) (x : RegIdx) (hkey : s.getKey k = false) (hwait : s.status = .waitKey x) :
      Moves s (.keyDown k) (s.resumed x k)
  | releases (k : Nibble) : Moves s (.keyUp k) (s.setKey k false)
  | resets (image : List Byte) (hlen : image.length ≤ 3584) : Moves s (.reset image) (s.restart image)
  | samples {a : AgentStep} (ha : a ∈ [.sampleFramebuffer, .sampleSound, .readStatus]) : Moves s a s

theorem engineStep_of_inside {s : State} (hpc : s.pc.toNat + 1 < 4096) :
    engineStep s = exec (decode (BitVec.ofNat 16 (s.opcodeAt s.pc.toNat))) s := by
  rcases engineStep_cases s with ⟨_, h⟩ | ⟨hout, _⟩
  · rw [h, wordOfBytes_read]
  · exact absurd hpc (Nat.not_lt.2 hout)

theorem engineStep_of_outside {s : State} (hpc : 4096 ≤ s.pc.toNat + 1) :
    engineStep s = .next (s.raise .memoryOutOfBounds none (some ⟨.fetch, max s.pc.toNat 4096⟩)) := by
  rcases engineStep_cases s with ⟨hin, _⟩ | ⟨_, h⟩
  · exact absurd hin (Nat.not_lt.2 hpc)
  · exact h

theorem runAgent_engine_of_running {s : State} (hrun : s.status = .running) : runAgent .engine s = engineStep s := by
  rw [runAgent, hrun]

theorem runAgent_engine_of_not_running {s : State} (hrun : s.status ≠ .running) : runAgent .engine s = .next s := by
  unfold runAgent
  cases hs : s.status with
  | running => exact absurd hs hrun
  | waitKey | faulted => rfl

/-- The keyboard's step, by whether the key is held and the core waits. -/
theorem moves_keyDown (s : State) (k : Nibble) : Moves s (.keyDown k) (s.keyDown k) := by
  cases hkey : s.getKey k with
  | true =>
    rw [keyDown_of_held hkey]
    exact .holds k hkey
  | false =>
    by_cases hwait : ∃ x, s.status = .waitKey x
    · obtain ⟨x, hx⟩ := hwait
      rw [keyDown_of_waiting hkey hx]
      exact .resumes k x hkey hx
    · have hno : ∀ x, s.status ≠ .waitKey x := not_exists.1 hwait
      rw [keyDown_of_not_waiting hkey hno]
      exact .presses k hkey hno

theorem moves_of_runAgent {a : AgentStep} {s t : State} (h : runAgent a s = .next t) : Moves s a t := by
  cases a with
  | engine =>
    by_cases hrun : s.status = .running
    · rw [runAgent_engine_of_running hrun] at h
      by_cases hpc : s.pc.toNat + 1 < 4096
      · exact .executes hrun hpc (engineStep_of_inside hpc ▸ h)
      · rw [engineStep_of_outside (Nat.not_lt.1 hpc)] at h
        cases h
        exact .fetchFaults hrun (Nat.not_lt.1 hpc)
    · rw [runAgent_engine_of_not_running hrun] at h
      cases h
      exact .passes hrun
  | reset image =>
    rw [runAgent] at h
    split at h
    next hlen =>
      cases h
      exact .resets image hlen
    next => cases h
  | tick => cases h; exact .ticks
  | keyDown k => cases h; exact moves_keyDown s k
  | keyUp k => cases h; exact .releases k
  | sampleFramebuffer | sampleSound | readStatus => cases h; exact .samples (by simp)

theorem runAgent_of_moves {a : AgentStep} {s t : State} (h : Moves s a t) : runAgent a s = .next t := by
  cases h with
  | executes hrun hpc hexec => rw [runAgent_engine_of_running hrun, engineStep_of_inside hpc, hexec]
  | fetchFaults hrun hpc => rw [runAgent_engine_of_running hrun, engineStep_of_outside hpc]
  | passes hrun => exact runAgent_engine_of_not_running hrun
  | holds k hkey => exact congrArg Host.Outcome.next (keyDown_of_held hkey)
  | presses k hkey hwait => exact congrArg Host.Outcome.next (keyDown_of_not_waiting hkey hwait)
  | resumes k x hkey hwait => exact congrArg Host.Outcome.next (keyDown_of_waiting hkey hwait)
  | resets image hlen => exact if_pos hlen
  | ticks | releases => rfl
  | samples ha =>
    simp only [List.mem_cons, List.not_mem_nil, or_false] at ha
    rcases ha with rfl | rfl | rfl <;> rfl

theorem setAgenda_nil {s : State} (h : s.env.agenda = []) : s.setAgenda [] = s := by
  rw [← h]
  rfl

/-- But in FAULTED, the engine alone does what its turn on the schedule does. -/
theorem runEngine_eq_runAgent {s : State} (h : ∀ d, s.status ≠ .faulted d) : runEngine s = runAgent .engine s := by
  unfold runEngine runAgent
  cases hs : s.status with
  | faulted d => exact absurd hs (h d)
  | running | waitKey => rfl

theorem not_faulted_of_runEngine {s t : State} (h : runEngine s = .next t) (d : Diagnostic) : s.status ≠ .faulted d := by
  intro hs
  rw [runEngine, hs] at h
  cases h

/-- A step to a next state is a step of the first agent on the schedule, or of the engine (rule R35, log entry 5). -/
theorem step_moves {s t : State} (h : step s = .next t) :
    ∃ a, s.env.agenda.headD .engine = a ∧ Moves (s.setAgenda s.env.agenda.tail) a t := by
  refine ⟨_, rfl, ?_⟩
  cases hagenda : s.env.agenda with
  | cons a rest => exact moves_of_runAgent ((step_scheduled hagenda).symm.trans h)
  | nil =>
    rw [step_unscheduled hagenda] at h
    rw [List.tail_nil, setAgenda_nil hagenda]
    exact moves_of_runAgent ((runEngine_eq_runAgent (not_faulted_of_runEngine h)).symm.trans h)

theorem agenda_of_headD {l : List AgentStep} {a : AgentStep} (h : l.headD .engine = a) (ha : a ≠ .engine) :
    l = a :: l.tail := by
  cases l with
  | nil => exact absurd h.symm ha
  | cons b rest => rw [← h]; rfl

/-! ### Invariants of every step -/

/-- What every agent's step keeps, and the schedule has no part in, every step of the machine keeps. -/
theorem invariant_of_moves {P : State → Prop} (hagenda : ∀ (s : State) l, P s → P (s.setAgenda l))
    (hmoves : ∀ {s a t}, P s → Moves s a t → P t) {s t : State} (hs : P s) (h : step s = .next t ∨ SomeAgentMoves s t) :
    P t := by
  rcases h with h | ⟨a, h⟩
  · obtain ⟨a, -, hm⟩ := step_moves h
    exact hmoves (hagenda s _ hs) hm
  · exact hmoves hs (moves_of_runAgent h)

theorem Moves.memInv {s t : State} {a : AgentStep} (hs : s.MemInv) (h : Moves s a t) : t.MemInv := by
  cases h with
  | executes _ _ hexec => exact (exec_kept hexec).memInv hs
  | resets image => exact writeBytes_wf _ image rfl
  | fetchFaults | passes | ticks | holds | presses | resumes | releases | samples => exact hs

/-- Settles O49: an instruction stores a run of bytes or nothing, a reset loads its image into the canonical empty memory, and no
other step writes memory. -/
theorem stepKeepsMemoryCanonical : Obligations.StepKeepsMemoryCanonical := by
  unfold Obligations.StepKeepsMemoryCanonical
  exact fun s t hs h => invariant_of_moves (fun _ _ h => h) (fun hs h => h.memInv hs) hs h

theorem Moves.params {s t : State} {a : AgentStep} (h : Moves s a t) : t.env.params = s.env.params := by
  cases h with
  | executes _ _ hexec => exact (exec_kept hexec).params
  | resets | fetchFaults | passes | ticks | holds | presses | resumes | releases | samples => rfl

/-- Settles O58: the parameters are a part of the state that every agent's step keeps. -/
theorem parametersNeverChange : Obligations.ParametersNeverChange := by
  unfold Obligations.ParametersNeverChange
  intro s t h
  exact invariant_of_moves (P := fun u => u.env.params = s.env.params) (fun _ _ h => h) (fun hs h => h.params.trans hs) rfl
    (.inl h)

/-! ### The status invariant (rules R33, R180 to R182) -/

/-- The rows of families 5 and 9 apart, only the canonical encoding decodes to an instruction. -/
theorem encode_of_decode {w : Word} {i : Instr} (h : decode w = i) (h8 : i.row ≠ 8) (h20 : i.row ≠ 20) : encode i = w := by
  subst h
  refine encode_decode (fun hop => h8 ?_) (fun hop => h20 ?_)
  · rw [decode_of_op_five hop, Instr.row]
  · rw [decode_of_op_nine hop, Instr.row]

theorem row_of_raises {s : State} {i : Instr} {c : Cause} (h : RaisesWhen s i c) : i.row ≠ 8 ∧ i.row ≠ 20 := by
  rcases h with ⟨-, ⟨nnn, rfl⟩, -⟩ | ⟨-, rfl, -⟩ | ⟨-, ⟨x, y, n, rfl, -⟩ | ⟨x, rfl, -⟩ | ⟨x, rfl | rfl, -⟩⟩ |
    ⟨-, ⟨nnn, rfl⟩ | ⟨w, rfl⟩, -⟩
  all_goals exact ⟨by simp [Instr.row], by simp [Instr.row]⟩

/-- A condition raised by the instruction a word decodes to is one its diagnostic tells truthfully. -/
theorem causeHolds_of_raises {s : State} {w : Word} {d : Diagnostic} (h : RaisesWhen s (decode w) d.cause)
    (hinfo : d.cause ≠ .memoryOutOfBounds → d.faultInfo = none)
    (haccess : d.cause = .memoryOutOfBounds → ∃ kind n a, accessOf (decode w) = some (kind, n) ∧
      LowestOutside s.i.toNat n a ∧ d.faultInfo = some ⟨kind, a⟩) : CauseHolds s w d := by
  unfold CauseHolds
  rcases h with ⟨hc, hcall, hsp⟩ | ⟨hc, hret, hsp⟩ | ⟨hc, hwhich⟩ | ⟨hc, hwhich, hpolicy⟩ <;> rw [hc] at hinfo haccess ⊢
  · exact ⟨hcall, hsp, hinfo nofun⟩
  · exact ⟨hret, hsp, hinfo nofun⟩
  · obtain ⟨kind, n, a, hacc, hlow, hd⟩ := haccess rfl
    refine ⟨a, ?_⟩
    rcases hwhich with ⟨x, y, n', hi, -, -⟩ | ⟨x, hi, -⟩ | ⟨x, hi | hi, -⟩ <;> rw [hi] at hacc <;> cases hacc
    · exact .inl ⟨x, y, n', hi, hlow, hd⟩
    · exact .inr (.inl ⟨x, hi, hlow, hd⟩)
    · exact .inr (.inr (.inl ⟨x, hi, hlow, hd⟩))
    · exact .inr (.inr (.inr ⟨x, hi, hlow, hd⟩))
  · refine ⟨hwhich.imp_right ?_, hpolicy, hinfo nofun⟩
    rintro ⟨v, hv⟩
    rw [hv, ((decode_eq_invalid_iff w v).1 hv).1]

theorem statusInv_of_running {s : State} (h : s.status = .running) : s.StatusInv := by
  rw [State.StatusInv, h]
  trivial

theorem statusInv_of_exec {s t : State} (hrun : s.status = .running) (hpc : s.pc.toNat + 1 < 4096)
    (h : exec (decode (BitVec.ofNat 16 (s.opcodeAt s.pc.toNat))) s = .next t) : t.StatusInv := by
  have hlt := opcodeAt_lt s s.pc.toNat
  rcases exec_ends_of_running h hrun with ⟨c, info, ⟨hraises, rfl, hinfo⟩, haccess⟩ | ⟨-, ht | ⟨x, hi, rfl⟩⟩
  · obtain ⟨h8, h20⟩ := row_of_raises hraises
    rw [encode_of_decode rfl h8 h20]
    exact ⟨rfl, hpc, Nat.mod_eq_of_lt hlt, causeHolds_of_raises hraises hinfo haccess⟩
  · exact statusInv_of_running ht
  · exact ⟨hpc, hlt, hi⟩

theorem lowestOutside_fetch {a : Nat} (h : 4096 ≤ a + 1) : LowestOutside a 2 (max a 4096) :=
  lowestOutside_max (Nat.lt_succ_of_le h) (by decide)

theorem Moves.statusInv {s t : State} {a : AgentStep} (hs : s.StatusInv) (h : Moves s a t) : t.StatusInv := by
  cases h with
  | executes hrun hpc hexec => exact statusInv_of_exec hrun hpc hexec
  | fetchFaults _ hpc => exact ⟨rfl, rfl, _, lowestOutside_fetch hpc, rfl⟩
  | resets | resumes => exact statusInv_of_running rfl
  | passes | ticks | holds | presses | releases | samples => exact hs

/-- Settles O50: a step that writes what the invariant speaks of is an instruction, which raises truthfully or waits at its own
address, or one that leaves the core running. -/
theorem stepKeepsStatusTruthful : Obligations.StepKeepsStatusTruthful := by
  unfold Obligations.StepKeepsStatusTruthful
  exact fun s t hs h => invariant_of_moves (fun _ _ h => h) (fun hs h => h.statusInv hs) hs h

/-- Settles O51. -/
theorem resetMeetsTheInvariants : Obligations.ResetMeetsTheInvariants := by
  unfold Obligations.ResetMeetsTheInvariants
  exact ⟨reset_mem_wf, statusInv_of_running rfl, rfl⟩

end Sys2Proof.Machine
end

section
/-! PROOFS. The statements about one step: fatal conditions, the engine, the Timer Clock, the keys, the wait, the end of a program
(rules R36, R38, R43, R184, R196, R203). -/

namespace Sys2Proof.Machine

/-! ### Fatal conditions and the engine -/

/-- Settles O38: a raised condition replaces the status alone, and any other end of an instruction is not FAULTED. -/
theorem fatalConditionsArePrecise : Obligations.FatalConditionsArePrecise := by
  unfold Obligations.FatalConditionsArePrecise
  intro i s t d h hrun hfault
  rcases exec_ends_of_running h hrun with ⟨c, info, ⟨-, rfl, hinfo⟩, -⟩ | ⟨-, ht | ⟨x, -, rfl⟩⟩
  · cases hfault
    exact ⟨rfl, rfl, rfl, hinfo⟩
  · rw [ht] at hfault
    cases hfault
  · cases hfault

/-- The engine's step, whether it is scheduled or the schedule is empty. -/
theorem step_engine {s u : State} {rest : List AgentStep} (hrun : s.status = .running)
    (h : (s.env.agenda = [] ∧ u = s) ∨ (s.env.agenda = .engine :: rest ∧ u = { s with env := { s.env with agenda := rest } })) :
    step s = engineStep u := by
  rcases h with ⟨hagenda, rfl⟩ | ⟨hagenda, rfl⟩
  · exact step_running hagenda hrun
  · exact (step_scheduled hagenda).trans (runAgent_engine_of_running (s := s.setAgenda rest) hrun)

/-- Settles O40, by whether both bytes of the opcode lie inside memory. -/
theorem stepRunsTheDecodedInstruction : Obligations.StepRunsTheDecodedInstruction := by
  unfold Obligations.StepRunsTheDecodedInstruction
  intro s u rest i hrun hu
  rw [step_engine hrun hu]
  have hpc : u.pc = s.pc := by rcases hu with ⟨-, rfl⟩ | ⟨-, rfl⟩ <;> rfl
  have hopcode : u.opcodeAt s.pc.toNat = s.opcodeAt s.pc.toNat := by rcases hu with ⟨-, rfl⟩ | ⟨-, rfl⟩ <;> rfl
  refine ⟨fun hin hdecode => ?_, fun hout => ?_⟩
  · have hi : decode (BitVec.ofNat 16 (s.opcodeAt s.pc.toNat)) = i := by
      rw [← wordOfBytes_read]
      exact congrArg Prod.fst (Except.ok.inj hdecode)
    rw [engineStep_of_inside (hpc ▸ hin), hpc, hopcode, hi]
    exact ⟨rfl, rfl⟩
  · rw [← hpc] at hout ⊢
    exact ⟨_, _, engineStep_of_outside hout, lowestOutside_fetch hout, fatalEntry_raise ..⟩

/-- Settles O41. -/
theorem engineHasNoStepUnlessRunning : Obligations.EngineHasNoStepUnlessRunning := by
  unfold Obligations.EngineHasNoStepUnlessRunning
  intro s hagenda
  rw [step_unscheduled hagenda]
  exact ⟨fun x hwait => by rw [runEngine, hwait], fun d hfault => by rw [runEngine, hfault]⟩

/-- Settles O42: with nothing scheduled the engine has no step in FAULTED only; of the scheduled steps only a reset can be
refused. -/
theorem stepStopsOnlyWhenFaultedOrImageTooLong : Obligations.StepStopsOnlyWhenFaultedOrImageTooLong := by
  unfold Obligations.StepStopsOnlyWhenFaultedOrImageTooLong
  intro s
  cases hagenda : s.env.agenda with
  | nil =>
    rw [step_unscheduled hagenda, runEngine]
    cases hs : s.status with
    | running =>
      rw [← runAgent_engine_of_running hs]
      exact .inl (runAgent_engine_moves s)
    | waitKey x => exact .inl ⟨s, rfl⟩
    | faulted d => exact .inr (.inl ⟨d, rfl, rfl, rfl⟩)
  | cons a rest =>
    rw [step_scheduled hagenda]
    cases a with
    | engine => exact .inl (runAgent_engine_moves _)
    | reset image =>
      by_cases hlen : image.length ≤ 3584
      · exact .inl ⟨_, if_pos hlen⟩
      · exact .inr (.inr ⟨image, rest, rfl, Nat.lt_of_not_le hlen, if_neg hlen⟩)
    | tick | keyDown | keyUp | sampleFramebuffer | sampleSound | readStatus => exact .inl ⟨_, rfl⟩

/-! ### The Timer Clock and the keys -/

/-- Settles O43. -/
theorem tickDecrementsBothTimers : Obligations.TickDecrementsBothTimers := by
  unfold Obligations.TickDecrementsBothTimers
  intro s rest hagenda
  exact ⟨_, step_scheduled hagenda, rfl, decremented_toNat s.dt, decremented_toNat s.st⟩

/-- A scheduled KeyDown. -/
theorem step_keyDown {s : State} {k : Nibble} {rest : List AgentStep} (h : s.env.agenda = .keyDown k :: rest) :
    step s = .next ((s.setAgenda rest).keyDown k) := step_scheduled h

/-- Settles O45: KeyDown by whether the key is held and the core waits; the other host steps by their definition. -/
theorem keyStepsActOnOneKey : Obligations.KeyStepsActOnOneKey := by
  unfold Obligations.KeyStepsActOnOneKey
  rintro s k rest _ rfl
  refine ⟨fun h hkey => ?_, fun h hkey hwait => ?_, fun h hkey x hwait => ?_, fun h => ?_, fun h => ⟨step_scheduled h, rfl⟩,
    fun h => ⟨step_scheduled h, rfl⟩, fun h => ⟨step_scheduled h, rfl⟩⟩
  · rw [step_keyDown h, keyDown_of_held (s := s.setAgenda rest) hkey]
    rfl
  · rw [step_keyDown h, keyDown_of_not_waiting (s := s.setAgenda rest) hkey hwait]
    exact ⟨_, rfl, rfl, getKey_setKey_self .., fun j hj => getKey_setKey_of_ne (s.setAgenda rest) true hj⟩
  · rw [step_keyDown h, keyDown_of_waiting (s := s.setAgenda rest) hkey hwait]
    exact ⟨_, rfl, rfl, getKey_setKey_self (s.setAgenda rest) k true,
      fun j hj => getKey_setKey_of_ne (s.setAgenda rest) true hj, regsKeptBut_resumed (s.setAgenda rest) x k,
      getV_resumed_self_toNat .., next_toNat s⟩
  · exact ⟨_, step_scheduled h, rfl, getKey_setKey_self .., fun j hj => getKey_setKey_of_ne (s.setAgenda rest) false hj⟩

/-- Settles O36: the wait is a status, which the key-press event takes back to RUNNING. -/
theorem waitForKeypressSuspendsAndResumes : Obligations.WaitForKeypressSuspendsAndResumes := by
  unfold Obligations.WaitForKeypressSuspendsAndResumes
  intro s x k
  refine ⟨decodesTo_of_encode rfl (wordXKK_F_toNat x 0x0A), s.setStatus (.waitKey x), rfl, rfl, fun hkey => ?_,
    fun hkey => keyDown_of_held (s := s.setStatus (.waitKey x)) hkey, rfl, rfl, rfl⟩
  rw [keyDown_of_waiting (s := s.setStatus (.waitKey x)) hkey rfl]
  exact ⟨regsKeptBut_resumed (s.setStatus (.waitKey x)) x k, getV_resumed_self_toNat .., next_toNat s, getKey_setKey_self s k true,
    fun j hj => getKey_setKey_of_ne s true hj, rfl⟩

/-! ### The wait (rule R203) -/

/-- What an agent's step does to a core that waits for register `x`. -/
theorem moves_of_waiting {s t : State} {a : AgentStep} {x : RegIdx} (hwait : s.status = .waitKey x) (h : Moves s a t) :
    (∃ image, a = .reset image ∧ t.status = .running) ∨ (∃ k, a = .keyDown k ∧ s.getKey k = false ∧ t = s.resumed x k) ∨
    t = { s with dt := t.dt, st := t.st, keys := t.keys } := by
  cases h with
  | resets image => exact .inl ⟨image, rfl, rfl⟩
  | resumes k y hkey hy =>
    cases hwait.symm.trans hy
    exact .inr (.inl ⟨k, rfl, hkey, rfl⟩)
  | executes hrun | fetchFaults hrun => cases hwait.symm.trans hrun
  | presses k hkey hno => exact absurd hwait (hno x)
  | passes | ticks | holds | releases | samples => exact .inr (.inr rfl)

/-- Settles O47: the agent whose turn it is decides which of the three ways the step goes. -/
theorem onlyKeyEventOrResetLeavesWait : Obligations.OnlyKeyEventOrResetLeavesWait := by
  unfold Obligations.OnlyKeyEventOrResetLeavesWait
  intro s t x hwait hstep
  obtain ⟨a, ha, hm⟩ := step_moves hstep
  rcases moves_of_waiting (s := s.setAgenda s.env.agenda.tail) hwait hm with ⟨image, rfl, hrun⟩ | ⟨k, rfl, hkey, rfl⟩ | hkept
  · exact .inl ⟨image, _, agenda_of_headD ha nofun, hrun⟩
  · exact .inr (.inl ⟨k, _, agenda_of_headD ha nofun, hkey, rfl, regsKeptBut_resumed (s.setAgenda _) x k,
      getV_resumed_self_toNat .., next_toNat s, getKey_setKey_self (s.setAgenda _) k true,
      fun j hj => getKey_setKey_of_ne (s.setAgenda _) true hj⟩)
  · exact .inr (.inr hkept)

/-! ### The end of a program (rule R43, log entry 16) -/

/-- A word decodes to `Jump nnn` exactly if it is its encoding. -/
theorem decode_eq_jump_iff {w : Word} {nnn : Address} : decode w = .jump nnn ↔ w.toNat = 0x1000 + nnn.toNat := by
  have hencode : (encode (.jump nnn)).toNat = 0x1000 + nnn.toNat := wordNNN_toNat 0x1 nnn
  rw [← hencode, BitVec.toNat_inj]
  constructor
  · exact fun h => (encode_of_decode h (by simp [Instr.row]) (by simp [Instr.row])).symm
  · rintro rfl
    exact decodeOfEncodeIsIdentity _ rfl

theorem ended_iff_decode (s : State) : s.ended = true ↔ s.status = .running ∧ s.pc.toNat + 1 < 4096 ∧
    decode (BitVec.ofNat 16 (s.opcodeAt s.pc.toNat)) = .jump (s.pc.setWidth 12) := by
  unfold State.ended
  rw [← wordOfBytes_read]
  rcases fetch_cases s with ⟨hin, hfetch⟩ | ⟨hout, hfetch⟩
  · have hin' : s.pc.toNat + 1 < 4096 := hin
    cases s.status <;> simp [hfetch, hin']
  · have hout' : ¬s.pc.toNat + 1 < 4096 := Nat.not_lt.2 hout
    cases s.status <;> simp [hfetch, hout']

theorem ended_iff (s : State) : s.ended = true ↔
    s.status = .running ∧ s.pc.toNat + 1 < 4096 ∧ s.opcodeAt s.pc.toNat = 0x1000 + s.pc.toNat := by
  rw [ended_iff_decode]
  refine and_congr_right fun _ => and_congr_right fun hpc => ?_
  rw [decode_eq_jump_iff, BitVec.toNat_ofNat, Nat.mod_eq_of_lt (opcodeAt_lt s _), BitVec.toNat_setWidth,
    Nat.mod_eq_of_lt (by omega)]

theorem zext16_setWidth {a : Word} (h : a.toNat < 4096) : zext16 (a.setWidth 12) = a := by
  apply BitVec.eq_of_toNat_eq
  rw [zext16_toNat, BitVec.toNat_setWidth, Nat.mod_eq_of_lt h]

/-- The jump of an ended program goes where it is. -/
theorem exec_of_ended {s : State} (h : s.ended = true) :
    exec (decode (BitVec.ofNat 16 (s.opcodeAt s.pc.toNat))) s = .next s := by
  obtain ⟨-, hpc, hjump⟩ := (ended_iff_decode s).1 h
  have hself : s.setPc (zext16 (s.pc.setWidth 12)) = s := by rw [zext16_setWidth (by omega)]; rfl
  rw [hjump]
  exact congrArg Host.Outcome.next hself

/-- What an agent's step does to an ended program. -/
theorem moves_of_ended {s t : State} {a : AgentStep} (hend : s.ended = true) (h : Moves s a t) :
    (∃ image, a = .reset image) ∨ (t.ended = true ∧ t = { s with dt := t.dt, st := t.st, keys := t.keys }) := by
  obtain ⟨hrun, hpc, -⟩ := (ended_iff s).1 hend
  cases h with
  | resets image => exact .inl ⟨image, rfl⟩
  | executes _ _ hexec =>
    rw [exec_of_ended hend] at hexec
    cases hexec
    exact .inr ⟨hend, rfl⟩
  | fetchFaults _ hout => omega
  | passes hno => exact absurd hrun hno
  | resumes _ x _ hwait => cases hrun.symm.trans hwait
  | ticks | holds | presses | releases | samples => exact .inr ⟨(ended_congr rfl rfl rfl).trans hend, rfl⟩

/-- Settles O48: no agent's step but a reset writes what the definition of the end reads, the jump among them. -/
theorem selfJumpIsAFixedPoint : Obligations.SelfJumpIsAFixedPoint := by
  unfold Obligations.SelfJumpIsAFixedPoint
  intro s
  refine ⟨ended_iff s, fun hend hagenda => ?_, fun t hend hstep => ?_⟩
  · obtain ⟨hrun, hpc, -⟩ := (ended_iff s).1 hend
    rw [step_executes hagenda hrun hpc, exec_of_ended hend]
  · obtain ⟨a, ha, hm⟩ := step_moves hstep
    have hend' : (s.setAgenda s.env.agenda.tail).ended = true := (ended_congr rfl rfl rfl).trans hend
    rcases moves_of_ended hend' hm with ⟨image, rfl⟩ | hkept
    · exact .inl ⟨image, _, agenda_of_headD ha nofun⟩
    · exact .inr hkept

end Sys2Proof.Machine
end

section
/-! PROOFS. What cannot be observed: the sound timer, which no instruction reads (rule R26), and the stack entries at or above SP
(rule R24). -/

namespace Sys2Proof.Machine

/-! ### Another sound timer and another stack -/

/-- The state with `b` in ST and `k` as its stack array. -/
def State.withHidden (s : State) (b : Byte) (k : Vector Word 16) : State := { s with st := b, stack := k }

theorem drawByte_withHidden (s : State) (b : Byte) (k : Vector Word 16) :
    (s.withHidden b k).drawByte = (s.drawByte.1, s.drawByte.2.withHidden b k) := by
  cases h : s.env.injected <;> simp [State.drawByte, State.withHidden, h]

theorem invalidOpcode_withHidden (s : State) (b : Byte) (k : Vector Word 16) (w : Word) :
    (s.withHidden b k).invalidOpcode w = (s.invalidOpcode w).withHidden b k := by
  cases h : s.env.params.invalidPolicy <;> simp only [State.invalidOpcode, State.withHidden, h] <;> rfl

/-- No instruction reads ST, and only Call and Return read the stack array: with others there, every other instruction does the
same to the rest. -/
theorem exec_withHidden {i : Instr} {s t : State} (h : exec i s = .next t) (hret : i.row ≠ 2) (hcall : i.row ≠ 5) (b : Byte)
    (k : Vector Word 16) : exec i (s.withHidden b k) = .next (t.withHidden (if i.row = 30 then t.st else b) k) := by
  cases i <;> cases h <;> refine congrArg Host.Outcome.next ?_
  case ret => exact absurd rfl hret
  case call => exact absurd rfl hcall
  case random => rw [drawByte_withHidden]; rfl
  case sys | invalid => exact invalidOpcode_withHidden ..
  case draw | storeBCD | storeRegisters | loadRegisters =>
    unfold State.ifInside
    rw [show (s.withHidden b k).indexAddress = s.indexAddress from rfl]
    split <;> rfl
  all_goals rfl

/-! ### The sound timer -/

theorem exec_ret_withSt {s t : State} (h : exec .ret s = .next t) (b : Byte) :
    exec .ret { s with st := b } = .next { t with st := b } := by
  rcases exec_ret_cases h with ⟨hpos, rfl⟩ | ⟨hempty, rfl⟩
  · exact exec_ret_of_pos (s := { s with st := b }) hpos
  · exact exec_ret_of_empty (s := { s with st := b }) hempty

theorem exec_call_withSt {nnn : Address} {s t : State} (h : exec (.call nnn) s = .next t) (b : Byte) :
    exec (.call nnn) { s with st := b } = .next { t with st := b } := by
  rcases exec_call_cases h with ⟨hlt, rfl⟩ | ⟨hfull, rfl⟩
  · exact exec_call_of_lt (s := { s with st := b }) nnn hlt
  · exact exec_call_of_full (s := { s with st := b }) nnn hfull

/-- Settles O59: Call and Return by the depth of the stack, every other instruction with its own stack put back. -/
theorem noInstructionReadsST : Obligations.NoInstructionReadsST := by
  unfold Obligations.NoInstructionReadsST
  intro i s t b h
  by_cases hret : i.row = 2
  · cases i <;> cases hret
    exact exec_ret_withSt h b
  by_cases hcall : i.row = 5
  · cases i <;> cases hcall
    exact exec_call_withSt h b
  have hstack : t.stack = s.stack := (exec_kept h).stack hcall
  have ht (c : Byte) : t.withHidden c s.stack = { t with st := c } := by rw [← hstack]; rfl
  exact (exec_withHidden h hret hcall b s.stack).trans (congrArg Host.Outcome.next (ht _))

/-! ### The dead entries of the stack -/

/-- The state with `k` as its stack array. -/
def State.withStack (s : State) (k : Vector Word 16) : State := { s with stack := k }

theorem sameButDeadEntries_iff {s s' : State} : SameButDeadEntries s s' ↔
    ∃ k, s' = s.withStack k ∧ ∀ j : Fin 16, j.val < s.sp.val → k[j] = s.stack[j] := by
  constructor
  · exact fun ⟨hs', hlive⟩ => ⟨s'.stack, hs', hlive⟩
  · rintro ⟨k, rfl, hlive⟩
    exact ⟨rfl, hlive⟩

/-- A step that keeps SP and the stack array keeps the live entries the same in both states. -/
theorem sameButDeadEntries_of_kept {s t : State} {k : Vector Word 16} (hstack : t.stack = s.stack) (hsp : t.sp = s.sp)
    (hlive : ∀ j : Fin 16, j.val < s.sp.val → k[j] = s.stack[j]) : SameButDeadEntries t (t.withStack k) := by
  refine sameButDeadEntries_iff.2 ⟨k, rfl, ?_⟩
  rw [hstack, hsp]
  exact hlive

section
variable {s t : State} {k : Vector Word 16}

theorem exec_withStack {i : Instr} (h : exec i s = .next t) (hret : i.row ≠ 2) (hcall : i.row ≠ 5) :
    exec i (s.withStack k) = .next (t.withStack k) := by
  have hhidden := exec_withHidden h hret hcall s.st k
  have hst : (if i.row = 30 then t.st else s.st) = t.st := by
    split_ifs with hrow
    · rfl
    · exact ((exec_kept h).st hrow).symm
  rw [hst] at hhidden
  exact hhidden

/-- Return reads the top live entry, which both states share. -/
theorem exec_ret_withStack (hlive : ∀ j : Fin 16, j.val < s.sp.val → k[j] = s.stack[j]) (h : exec .ret s = .next t) :
    ∃ t', exec .ret (s.withStack k) = .next t' ∧ SameButDeadEntries t t' := by
  rcases exec_ret_cases h with ⟨hpos, rfl⟩ | ⟨hempty, rfl⟩
  · have htop : k[s.sp.val - 1] = s.stack[s.sp.val - 1] := hlive ⟨s.sp.val - 1, by omega⟩ (Nat.sub_one_lt_of_lt hpos)
    refine ⟨_, exec_ret_of_pos (s := s.withStack k) hpos, sameButDeadEntries_iff.2 ⟨k, ?_, fun j hj => ?_⟩⟩
    · simp only [State.withStack, htop]
    · exact hlive j (Nat.lt_of_lt_of_le hj (Nat.sub_le ..))
  · exact ⟨_, exec_ret_of_empty (s := s.withStack k) hempty, sameButDeadEntries_of_kept rfl rfl hlive⟩

/-- Call overwrites the lowest dead entry, with the same address in both states. -/
theorem exec_call_withStack {nnn : Address} (hlive : ∀ j : Fin 16, j.val < s.sp.val → k[j] = s.stack[j])
    (h : exec (.call nnn) s = .next t) :
    ∃ t', exec (.call nnn) (s.withStack k) = .next t' ∧ SameButDeadEntries t t' := by
  rcases exec_call_cases h with ⟨hlt, rfl⟩ | ⟨hfull, rfl⟩
  · refine ⟨_, exec_call_of_lt (s := s.withStack k) nnn hlt, sameButDeadEntries_iff.2 ⟨_, rfl, fun j hj => ?_⟩⟩
    by_cases htop : s.sp.val = j.val
    · simp [State.withStack, State.next, htop]
    · have hlow : j.val < s.sp.val := by have : j.val < s.sp.val + 1 := hj; omega
      simpa [State.withStack, htop] using hlive j hlow
  · exact ⟨_, exec_call_of_full (s := s.withStack k) nnn hfull, sameButDeadEntries_of_kept rfl rfl hlive⟩

theorem exec_sameButDeadEntries {i : Instr} (hlive : ∀ j : Fin 16, j.val < s.sp.val → k[j] = s.stack[j])
    (h : exec i s = .next t) : ∃ t', exec i (s.withStack k) = .next t' ∧ SameButDeadEntries t t' := by
  by_cases hret : i.row = 2
  · cases i <;> cases hret
    exact exec_ret_withStack hlive h
  by_cases hcall : i.row = 5
  · cases i <;> cases hcall
    exact exec_call_withStack hlive h
  have hkept := exec_kept h
  exact ⟨_, exec_withStack h hret hcall, sameButDeadEntries_of_kept (hkept.stack hcall) (hkept.sp hcall hret) hlive⟩

/-- Every agent takes the same step in both states: nothing that decides which step it is lies in the stack. -/
theorem moves_sameButDeadEntries {s' : State} {a : AgentStep} (hsame : SameButDeadEntries s s') (h : Moves s a t) :
    ∃ t', Moves s' a t' ∧ SameButDeadEntries t t' := by
  obtain ⟨k, rfl, hlive⟩ := sameButDeadEntries_iff.1 hsame
  have hkept {t : State} (hstack : t.stack = s.stack) (hsp : t.sp = s.sp) := sameButDeadEntries_of_kept hstack hsp hlive
  cases h with
  | executes hrun hpc hexec =>
    obtain ⟨t', ht', hsame'⟩ := exec_sameButDeadEntries hlive hexec
    exact ⟨t', .executes hrun hpc ht', hsame'⟩
  | fetchFaults hrun hpc => exact ⟨_, .fetchFaults hrun hpc, hkept rfl rfl⟩
  | passes hrun => exact ⟨_, .passes hrun, hkept rfl rfl⟩
  | ticks => exact ⟨_, .ticks, hkept rfl rfl⟩
  | holds n hkey => exact ⟨_, .holds n hkey, hkept rfl rfl⟩
  | presses n hkey hwait => exact ⟨_, .presses n hkey hwait, hkept rfl rfl⟩
  | resumes n x hkey hwait => exact ⟨_, .resumes n x hkey hwait, hkept rfl rfl⟩
  | releases n => exact ⟨_, .releases n, hkept rfl rfl⟩
  | resets image hlen => exact ⟨_, .resets image hlen, rfl, fun _ _ => rfl⟩
  | samples ha => exact ⟨_, .samples ha, hkept rfl rfl⟩

/-- A step of the first agent on the schedule, or of the engine where it has one, is a step of the machine. -/
theorem step_of_moves {a : AgentStep} (ha : s.env.agenda.headD .engine = a)
    (hfault : s.env.agenda = [] → ∀ d, s.status ≠ .faulted d) (h : Moves (s.setAgenda s.env.agenda.tail) a t) :
    step s = .next t := by
  have hrun := runAgent_of_moves h
  subst ha
  cases hagenda : s.env.agenda with
  | cons b rest =>
    rw [hagenda] at hrun
    exact (step_scheduled hagenda).trans hrun
  | nil =>
    rw [hagenda, List.tail_nil, setAgenda_nil hagenda] at hrun
    rw [step_unscheduled hagenda, runEngine_eq_runAgent (hfault hagenda)]
    exact hrun

end

/-- Settles O60: the same agent takes the same step in both states, and only Return reads the stack, at its top live entry. -/
theorem deadStackEntriesAreUnobservable : Obligations.DeadStackEntriesAreUnobservable := by
  unfold Obligations.DeadStackEntriesAreUnobservable
  intro s s' t hsame hstep
  obtain ⟨a, ha, hm⟩ := step_moves hstep
  obtain ⟨k, rfl, hlive⟩ := sameButDeadEntries_iff.1 hsame
  have hsame' : SameButDeadEntries (s.setAgenda s.env.agenda.tail) ((s.withStack k).setAgenda s.env.agenda.tail) :=
    sameButDeadEntries_iff.2 ⟨k, rfl, hlive⟩
  obtain ⟨t', hm', ht'⟩ := moves_sameButDeadEntries hsame' hm
  have hfault (hagenda : s.env.agenda = []) (d : Diagnostic) : s.status ≠ .faulted d :=
    not_faulted_of_runEngine ((step_unscheduled hagenda).symm.trans hstep) d
  exact ⟨t', step_of_moves ha hfault hm', ht'⟩

end Sys2Proof.Machine
end

section
/-! PROOFS. The two timers over many steps (rules R196, R197), both by one argument over `Timer`, and the state after a reset
(rules R41, R157, R211). -/

namespace Sys2Proof.Machine

/-! ### A timer, its value and its write -/

/-- The two timers, DT and ST. -/
inductive Timer where
  | delay
  | sound

/-- The timer's value. -/
def Timer.read : Timer → State → Byte
  | .delay, s => s.dt
  | .sound, s => s.st

/-- The one instruction that writes the timer (rules R168, R169). -/
def Timer.write : Timer → RegIdx → Instr
  | .delay, x => .setDelayTimer x
  | .sound, x => .setSoundTimer x

/-- The row of the opcode map the timer's write belongs to (rule R83). -/
def Timer.writeRow : Timer → Nat
  | .delay => 29
  | .sound => 30

theorem row_eq_writeRow {T : Timer} {i : Instr} (h : i.row = T.writeRow) : ∃ x, i = T.write x := by
  cases T <;> cases i <;> cases h <;> exact ⟨_, rfl⟩

theorem read_of_exec_write {T : Timer} {s t : State} {x : RegIdx} (h : exec (T.write x) s = .next t) :
    T.read t = s.getV x := by
  cases T <;> cases h <;> rfl

/-- Every other instruction keeps the timer. -/
theorem Kept.read {T : Timer} {i : Instr} {s t : State} (h : Kept i s t) (hi : ∀ x, i ≠ T.write x) : T.read t = T.read s := by
  have hrow : i.row ≠ T.writeRow := fun e => (row_eq_writeRow e).elim hi
  cases T with
  | delay => exact h.dt hrow
  | sound => exact h.st hrow

theorem read_tick (T : Timer) (s : State) : (T.read s.tick).toNat = (T.read s).toNat - 1 := by
  cases T with
  | delay => exact decremented_toNat s.dt
  | sound => exact decremented_toNat s.st

theorem read_iterate_tick (T : Timer) (s : State) (j : Nat) : (T.read (State.tick^[j] s)).toNat = (T.read s).toNat - j := by
  induction j with
  | zero => rfl
  | succ j ih => rw [Function.iterate_succ_apply', read_tick, ih, Nat.sub_sub]

/-! ### A timer in an interleaving (rules R35, R196) -/

/-- No step raises a timer but the engine's, when it executes the timer's write. -/
theorem Moves.read_le {T : Timer} {s t : State} {a : AgentStep} (h : Moves s a t)
    (hno : a = .engine → ∀ x, ¬s.Executes (T.write x)) : (T.read t).toNat ≤ (T.read s).toNat := by
  cases h with
  | executes hrun hpc hexec =>
    refine le_of_eq (congrArg BitVec.toNat ((exec_kept hexec).read fun x hx => ?_))
    exact hno rfl x ⟨hrun, hpc, opcodeAt_lt s _, hx⟩
  | ticks => rw [read_tick]; exact Nat.sub_le ..
  | resets => cases T <;> exact Nat.zero_le _
  | fetchFaults | passes | holds | presses | resumes | releases | samples => cases T <;> exact le_rfl

/-- A number that never rises and falls by one again and again reaches 0 and stays there. -/
theorem eventually_zero {f : Nat → Nat} {n : Nat} (hle : ∀ k, n ≤ k → f (k + 1) ≤ f k)
    (hdrop : ∀ k, ∃ m, k ≤ m ∧ f (m + 1) = f m - 1) : ∃ m, n ≤ m ∧ ∀ k, m ≤ k → f k = 0 := by
  have hanti {m k : Nat} (hm : n ≤ m) (hk : m ≤ k) : f k ≤ f m := by
    induction k, hk using Nat.le_induction with
    | base => exact le_rfl
    | succ k hk ih => exact (hle k (hm.trans hk)).trans ih
  have hreach (v : Nat) : ∀ m, n ≤ m → f m ≤ v → ∃ m, n ≤ m ∧ ∀ k, m ≤ k → f k = 0 := by
    induction v with
    | zero => exact fun m hm hv => ⟨m, hm, fun k hk => Nat.le_zero.1 ((hanti hm hk).trans hv)⟩
    | succ v ih =>
      intro m hm hv
      obtain ⟨m', hm', hd⟩ := hdrop m
      have hfall := hanti hm hm'
      exact ih (m' + 1) (by omega) (by omega)
  exact hreach (f n) n le_rfl le_rfl

theorem read_eventually_zero (T : Timer) {agent : Nat → AgentStep} {σ : Nat → State} {n : Nat} (h : Interleaving agent σ)
    (hfair : TimerClockFair agent) (hno : ∀ k x, n ≤ k → agent k = .engine → ¬(σ k).Executes (T.write x)) :
    ∃ m, n ≤ m ∧ ∀ k, m ≤ k → T.read (σ k) = 0 := by
  have hmoves (k : Nat) : Moves (σ k) (agent k) (σ (k + 1)) := moves_of_runAgent (h k)
  have hdrop (k : Nat) : ∃ m, k ≤ m ∧ (T.read (σ (m + 1))).toNat = (T.read (σ m)).toNat - 1 := by
    obtain ⟨m, hm, htick⟩ := hfair k
    have hnext : (σ m).tick = σ (m + 1) := Host.Outcome.next.inj ((congrArg (runAgent · (σ m)) htick).symm.trans (h m))
    exact ⟨m, hm, by rw [← hnext, read_tick]⟩
  obtain ⟨m, hm, hzero⟩ := eventually_zero (f := fun k => (T.read (σ k)).toNat)
    (fun k hk => (hmoves k).read_le fun ha x => hno k x hk ha) hdrop
  exact ⟨m, hm, fun k hk => BitVec.eq_of_toNat_eq (hzero k hk)⟩

/-- Settles O44: each tick lowers a timer by one, and but for its own write no step raises it. -/
theorem timersCountDownToZero : Obligations.TimersCountDownToZero := by
  unfold Obligations.TimersCountDownToZero
  have hafter (T : Timer) {s t : State} {x : RegIdx} (j : Nat) (h : exec (T.write x) s = .next t) :
      (T.read (State.tick^[j] t)).toNat = (s.getV x).toNat - j := by
    rw [read_iterate_tick, read_of_exec_write h]
  exact ⟨fun s t x j => ⟨hafter .delay j, hafter .sound j⟩, fun agent σ n h hfair =>
    ⟨read_eventually_zero .delay h hfair, read_eventually_zero .sound h hfair⟩⟩

/-! ### The state after a reset -/

theorem unlisted_of_font_end_le {a : Nat} (h : 0x50 ≤ a) : Memory.unlisted a = 0 := by
  have hlen : Config.glyphTable.length = 0x50 := rfl
  exact (if_pos (Nat.zero_le a)).trans (List.getD_eq_default _ _ (hlen ▸ h))

/-- The glyph table, a digit a number of five bytes (rule R157). -/
theorem unlisted_glyph : ∀ d < 16, ∀ j < 5, (Memory.unlisted (5 * d + j)).toNat =
    [0xF0909090F0, 0x2060202070, 0xF010F080F0, 0xF010F010F0, 0x9090F01010, 0xF080F010F0, 0xF080F090F0, 0xF010204040,
      0xF090F090F0, 0xF090F010F0, 0xF090F09090, 0xE090E090E0, 0xF0808080F0, 0xE0909090E0, 0xF080F080F0,
      0xF080F08080].getD d 0 / 256 ^ (4 - j) % 256 := by decide

theorem byteAt_restart_inside {s : State} {image : List Byte} (hlen : image.length ≤ 3584) {j : Nat} (hj : j < image.length) :
    (s.restart image).byteAt (0x200 + j) = image[j] :=
  read_writeBytes_inside (a := 0x200) (m := []) rfl (by unfold Config.memSize; omega) hj

theorem byteAt_restart_outside {s : State} {image : List Byte} (hlen : image.length ≤ 3584) {a : Nat}
    (ha : a < 0x200 ∨ 0x200 + image.length ≤ a) : (s.restart image).byteAt a = Memory.unlisted a :=
  read_writeBytes_outside (a := 0x200) (m := []) rfl (by unfold Config.memSize; omega) ha

theorem reset_zeros : (∀ r, State.reset.getV r = 0) ∧ (∀ j : Fin 16, State.reset.stack[j] = 0) ∧
    ∀ k, State.reset.getKey k = false := by decide

/-- Settles O46: the image fits, and is read back over an empty memory, or the reset is refused. -/
theorem resetRestoresThePostLoadState : Obligations.ResetRestoresThePostLoadState := by
  unfold Obligations.ResetRestoresThePostLoadState
  intro s image rest hagenda
  rw [step_scheduled hagenda]
  refine ⟨fun hlen => ?_, fun hlen => if_neg (Nat.not_le.2 hlen)⟩
  obtain ⟨hregs, hstack, hkeys⟩ := reset_zeros
  refine ⟨_, if_pos hlen, rfl, hregs, rfl, rfl, hstack, rfl, rfl, getElem_replicate_replicate_false, hkeys, rfl, rfl,
    fun j hj => byteAt_restart_inside hlen hj, fun a ha hout => ?_, fun d j hd hj => ?_⟩
  · rw [byteAt_restart_outside hlen hout, unlisted_of_font_end_le ha]
  · rw [byteAt_restart_outside hlen (.inl (by omega))]
    exact unlisted_glyph d hd j hj

end Sys2Proof.Machine
end

section
/-! PROOFS. Two instructions in a row: Call and Return, a block stored and loaded back, and a store seen by the next fetch (rules R72,
R112, R114, R217). -/

namespace Sys2Proof.Machine

/-- One step of a running core with nothing scheduled, by the number of the opcode at PC. -/
theorem step_of_decodesTo {s : State} {n : Nat} {i : Instr} (hagenda : s.env.agenda = []) (hrun : s.status = .running)
    (hpc : s.pc.toNat + 1 < 4096) (hn : s.opcodeAt s.pc.toNat = n) (hi : DecodesTo n i) : step s = exec i s := by
  rw [step_executes hagenda hrun hpc, hn, hi.2]

/-- Settles O18, from what Call and Return do on their own: the Return pops what the Call pushed. -/
theorem callThenReturnComesBack : Obligations.CallThenReturnComesBack := by
  unfold Obligations.CallThenReturnComesBack
  intro s nnn hrun hagenda hsp hpc hcall hnnn hret
  obtain ⟨hdecodes, hpush, -⟩ := callPushesOrOverflows s nnn
  obtain ⟨t, ht, htframe, htpc, htsp, htop, hrest⟩ := hpush hsp
  obtain ⟨hdecodes', hpop, -⟩ := returnPopsOrUnderflows t
  obtain ⟨u, hu, huframe, husp, hupc⟩ := hpop (by omega)
  have hstep := step_of_decodesTo hagenda hrun hpc hcall hdecodes
  have hstep' : step t = exec .ret t :=
    step_of_decodesTo (by rw [htframe]; exact hagenda) (by rw [htframe]; exact hrun) (by rw [htpc]; exact hnnn)
      (by rw [htpc, htframe]; exact hret) hdecodes'
  have hsp' : u.sp = s.sp := Fin.ext (by omega)
  have hstack : u.stack = t.stack := by rw [huframe]
  refine ⟨t, u, hstep.trans ht, htpc, hstep'.trans hu, ?_, ?_, fun j hj => hstack ▸ hrest j hj⟩
  · rw [PcMoves, hupc ⟨s.sp.val, hsp⟩ (by rw [htsp]; rfl)]
    exact htop ⟨s.sp.val, hsp⟩ rfl
  · rw [← hsp', huframe, htframe]

/-- Settles O28, from what the two transfers do to a state on their own. -/
theorem storedBlockLoadsBack : Obligations.StoredBlockLoadsBack := by
  unfold Obligations.StoredBlockLoadsBack
  intro s x regs hmem hin
  obtain ⟨-, hstore, -⟩ := storeRegistersFillsMemory s x hmem
  obtain ⟨t, ht, -, -, -, hbytes, -⟩ := hstore hin
  obtain ⟨-, hload, -⟩ := loadRegistersReadsMemory { t with i := s.i, v := regs } x
  obtain ⟨u, hu, hframe, -, -, hregs, -⟩ := hload hin
  refine ⟨t, u, ht, hu, by rw [hframe], fun r hr => ?_⟩
  exact (hregs r hr).trans (hbytes r hr)

/-- Settles O29: the store leaves the core running at the next address, where one byte of the opcode is `V[0]`. -/
theorem nextFetchSeesTheStore : Obligations.NextFetchSeesTheStore := by
  unfold Obligations.NextFetchSeesTheStore
  intro s hmem hrun hagenda hpc hopcode
  obtain ⟨hdecodes, hstore, -⟩ := storeRegistersFillsMemory s 0 hmem
  have hstep := step_of_decodesTo hagenda hrun (by omega) hopcode hdecodes
  have hnext (hin : s.i.toNat < 4096) : ∃ t, step s = .next t ∧ PcMoves 2 s t ∧
      step t = exec (decode (BitVec.ofNat 16 (t.opcodeAt (s.pc.toNat + 2)))) t ∧ t.byteAt s.i.toNat = s.getV 0 ∧
      ∀ a, a ≠ s.i.toNat → t.byteAt a = s.byteAt a := by
    obtain ⟨t, ht, hframe, hpc', -, hbyte, hkept⟩ := hstore hin
    have htpc : t.pc.toNat = s.pc.toNat + 2 := hpc'.trans (Nat.mod_eq_of_lt (by omega))
    refine ⟨t, hstep.trans ht, hpc', ?_, hbyte 0 le_rfl, fun a ha => hkept a (Nat.lt_or_gt_of_ne ha)⟩
    rw [← htpc]
    exact step_executes (by rw [hframe]; exact hagenda) (by rw [hframe]; exact hrun) (by omega)
  refine ⟨fun hi => ?_, fun hi => ?_⟩
  · obtain ⟨t, ht, hmoves, hfetch, hbyte, hkept⟩ := hnext (by omega)
    refine ⟨t, ht, hmoves, ?_⟩
    rw [hfetch, State.opcodeAt, ← hi, hbyte, hkept _ (by omega), hi]
  · obtain ⟨t, ht, hmoves, hfetch, hbyte, hkept⟩ := hnext (by omega)
    refine ⟨t, ht, hmoves, ?_⟩
    rw [hfetch, State.opcodeAt, show s.pc.toNat + 2 + 1 = s.i.toNat from hi.symm, hbyte, hkept _ (by omega)]

end Sys2Proof.Machine
end

section
/-! PROOFS. Draw (43_display_keys_timers.md section 1): the picture it makes, pixel by pixel, its collision flag, and its fault (rule
R162). -/

namespace Sys2Proof.Machine

/-! ### The picture and the collision -/

/-- Where a drawing starts: the framebuffer as it is, and no collision yet. -/
def State.canvas (s : State) : Canvas := { fb := s.fb, collision := false }

/-- The pixels `Draw Vx, Vy, n` toggles. -/
def State.targets (s : State) (x y : RegIdx) (n : Nibble) : List (Fin 32 × Fin 64) :=
  spriteTargets s.env.params.drawVertical (s.spriteColumn x) (s.spriteRow y) 0 (s.mem.readBytes s.indexAddress n.toNat)

theorem mem_targets {s : State} {x y : RegIdx} {n : Nibble} {yy : Fin 32} {xx : Fin 64} :
    (yy, xx) ∈ s.targets x y n ↔ s.CoversPixel x y n yy xx := mem_targets_iff_covers ..

theorem targets_nodup (s : State) (x y : RegIdx) (n : Nibble) : (s.targets x y n).Nodup :=
  spriteTargets_nodup (by rw [readBytes_length, Nat.zero_add]; exact n.isLt.le)

theorem drawn_eq_toggleAll (s : State) (x y : RegIdx) (n : Nibble) : s.drawn x y n = s.canvas.toggleAll (s.targets x y n) :=
  drawRows_eq ..

section
variable {s : State} {x y : RegIdx} {n : Nibble} {yy : Fin 32} {xx : Fin 64}

theorem drawn_covered (h : s.CoversPixel x y n yy xx) : (s.drawn x y n).fb[yy][xx] = !s.fb[yy][xx] := by
  rw [drawn_eq_toggleAll, toggleAll_pixel _ _ (targets_nodup ..), if_pos (mem_targets.2 h)]
  rfl

theorem drawn_not_covered (h : ¬s.CoversPixel x y n yy xx) : (s.drawn x y n).fb[yy][xx] = s.fb[yy][xx] := by
  rw [drawn_eq_toggleAll, toggleAll_pixel _ _ (targets_nodup ..), if_neg (mem_targets.not.2 h)]
  rfl

end

theorem drawn_collision (s : State) (x y : RegIdx) (n : Nibble) :
    (s.drawn x y n).collision = true ↔ ∃ yy xx, s.CoversPixel x y n yy xx ∧ s.fb[yy][xx] = true := by
  rw [drawn_eq_toggleAll, toggleAll_collision _ _ (targets_nodup ..)]
  constructor
  · rintro (h | ⟨⟨yy, xx⟩, hmem, hset⟩)
    · cases h
    · exact ⟨yy, xx, mem_targets.1 hmem, hset⟩
  · rintro ⟨yy, xx, hcovers, hset⟩
    exact .inr ⟨(yy, xx), mem_targets.2 hcovers, hset⟩

/-- A collision is a bit that goes from set to unset. -/
theorem drawn_collision_iff_unset (s : State) (x y : RegIdx) (n : Nibble) : (s.drawn x y n).collision = true ↔
    ∃ (yy : Fin 32) (xx : Fin 64), s.fb[yy][xx] = true ∧ (s.drawn x y n).fb[yy][xx] = false := by
  rw [drawn_collision]
  refine exists_congr fun yy => exists_congr fun xx => ?_
  by_cases hcovers : s.CoversPixel x y n yy xx
  · rw [drawn_covered hcovers]
    simp [hcovers]
  · rw [drawn_not_covered hcovers]
    simp [hcovers]

/-! ### The instruction -/

theorem encode_draw_toNat (x y : RegIdx) (n : Nibble) :
    (encode (.draw x y n)).toNat = 0xD000 + 256 * x.toNat + 16 * y.toNat + n.toNat := by
  rw [encode, wordXYN_toNat, show BitVec.toNat (0xD : Nibble) = 13 from rfl]
  omega

theorem exec_draw_inside {s : State} (x y : RegIdx) {n : Nibble} (h : n.toNat = 0 ∨ s.i.toNat + n.toNat - 1 < 4096) :
    exec (.draw x y n) s = .next
      ((s.setFb (s.drawn x y n).fb).setV vf (flagByte (s.drawn x y n).collision)).advance := by
  have hinside : firstOutside s.indexAddress n.toNat = none := by
    rw [firstOutside_eq_none, State.indexAddress, Config.memSize]
    omega
  rw [exec, execDraw, State.ifInside, hinside]

/-- Settles O31: Draw toggles its targets, which are the covered pixels, and collides where one was set. -/
theorem drawXorsTheSprite : Obligations.DrawXorsTheSprite := by
  unfold Obligations.DrawXorsTheSprite
  intro s x y n
  refine ⟨decodesTo_of_encode rfl (encode_draw_toNat x y n), fun hin => ⟨_, exec_draw_inside x y hin, rfl, fun r hr => ?_,
    next_toNat s, fun yy xx => drawn_covered, fun yy xx => drawn_not_covered, ?_⟩⟩
  · exact getV_setV_of_ne (s.setFb _) _ (List.ne_of_not_mem_cons hr)
  · rw [advance_getV, getV_setV_self]
    exact flagIs_flagByte (drawn_collision_iff_unset s x y n)

/-- Settles O32. -/
theorem drawFaultsOutsideMemory : Obligations.DrawFaultsOutsideMemory := by
  unfold Obligations.DrawFaultsOutsideMemory
  intro s x y n hn hout
  exact exec_outside rfl (encode_eq_ofNat (encode_draw_toNat x y n))
    (.inr (.inr (.inl ⟨rfl, .inl ⟨x, y, n, rfl, hn, hout⟩⟩)))

/-! ### Drawing twice -/

theorem framebuffer_ext {f g : Framebuffer} (h : ∀ (yy : Fin 32) (xx : Fin 64), f[yy][xx] = g[yy][xx]) : f = g :=
  Vector.ext fun i hi => Vector.ext fun j hj => h ⟨i, hi⟩ ⟨j, hj⟩

/-- What a sprite covers depends on its coordinates, I, memory and DRAW_VERTICAL alone. -/
theorem coversPixel_congr {s t : State} {x y : RegIdx} {n : Nibble} {yy : Fin 32} {xx : Fin 64} (hx : t.getV x = s.getV x)
    (hy : t.getV y = s.getV y) (hi : t.i = s.i) (hmem : t.mem = s.mem) (henv : t.env = s.env) :
    t.CoversPixel x y n yy xx ↔ s.CoversPixel x y n yy xx := by
  simp only [State.CoversPixel, State.byteAt, hx, hy, hi, hmem, henv]

/-- Settles O33: the second Draw covers the same pixels, so it toggles back what the first one toggled. -/
theorem drawingTwiceRestores : Obligations.DrawingTwiceRestores := by
  unfold Obligations.DrawingTwiceRestores
  intro s x y n hx hy hin
  obtain ⟨-, hdraw⟩ := drawXorsTheSprite s x y n
  obtain ⟨t, ht, hframe, hregs, -, hcovered, hnot, -⟩ := hdraw hin
  have hi : t.i = s.i := by rw [hframe]
  have hcovers (yy : Fin 32) (xx : Fin 64) : t.CoversPixel x y n yy xx ↔ s.CoversPixel x y n yy xx :=
    coversPixel_congr (hregs x (by simpa using hx)) (hregs y (by simpa using hy)) hi (by rw [hframe]) (by rw [hframe])
  obtain ⟨-, hdraw'⟩ := drawXorsTheSprite t x y n
  obtain ⟨u, hu, -, -, -, hcovered', hnot', hflag⟩ := hdraw' (by rw [hi]; exact hin)
  have hback (yy : Fin 32) (xx : Fin 64) : u.fb[yy][xx] = s.fb[yy][xx] := by
    by_cases h : s.CoversPixel x y n yy xx
    · rw [hcovered' yy xx ((hcovers yy xx).2 h), hcovered yy xx h, Bool.not_not]
    · rw [hnot' yy xx ((hcovers yy xx).not.2 h), hnot yy xx h]
  have hunset (yy : Fin 32) (xx : Fin 64) :
      t.fb[yy][xx] = true ∧ u.fb[yy][xx] = false ↔ s.CoversPixel x y n yy xx ∧ s.fb[yy][xx] = false := by
    rw [hback]
    by_cases h : s.CoversPixel x y n yy xx
    · rw [hcovered yy xx h]
      simp [h]
    · rw [hnot yy xx h]
      simp [h]
  simp only [hunset] at hflag
  exact ⟨t, u, ht, hu, framebuffer_ext hback, hflag⟩

end Sys2Proof.Machine
end

section
/-! PROOFS. The remaining rows one by one: the logic and arithmetic operations and the shifts (41_alu.md), Random, the jumps and skips
(40_control_flow.md), Sys and Invalid, AddI and GlyphAddress (42_index_memory.md), the key skips. -/

namespace Sys2Proof.Machine

/-! ### The end of an operation that sets the flag (rules R130, R143) -/

theorem pcMoves_resultThenFlag (s : State) (x : RegIdx) (b f : Byte) : PcMoves 2 s (s.resultThenFlag x b f) := next_toNat s

theorem onlyRegsAndPc_resultThenFlag (s : State) {ws : List RegIdx} {x : RegIdx} (hx : x ∈ ws) (hvf : vf ∈ ws) (b f : Byte) :
    OnlyRegsAndPc ws s (s.resultThenFlag x b f) := by
  refine ⟨rfl, fun r hr => ?_⟩
  rw [getV_resultThenFlag, if_neg (ne_of_mem_of_not_mem hvf hr).symm, if_neg (ne_of_mem_of_not_mem hx hr).symm]

theorem getV_resultThenFlag_vf (s : State) (x : RegIdx) (b f : Byte) : (s.resultThenFlag x b f).getV vf = f := by
  rw [getV_resultThenFlag, if_pos rfl]

theorem getV_resultThenFlag_self (s : State) {x : RegIdx} (hx : x ≠ vf) (b f : Byte) : (s.resultThenFlag x b f).getV x = b := by
  rw [getV_resultThenFlag, if_neg hx, if_pos rfl]

/-! ### The flags and the shift source (rules R137 to R141, R145) -/

theorem flagIs_carryFlag (a b : Byte) : FlagIs (carryFlag a b) (a.toNat + b.toNat > 255) := flagIs_flagByte decide_eq_true_iff

theorem flagIs_noBorrowFlag (a b : Byte) : FlagIs (noBorrowFlag a b) (a.toNat ≥ b.toNat) := flagIs_flagByte decide_eq_true_iff

theorem flagIs_shiftedOutRight (b : Byte) : FlagIs (shiftedOutRight b) (b.toNat % 2 = 1) :=
  flagIs_flagByte (by rw [BitVec.getLsbD, Nat.testBit_zero, decide_eq_true_iff])

theorem flagIs_shiftedOutLeft (b : Byte) : FlagIs (shiftedOutLeft b) (b.toNat ≥ 128) := by
  refine flagIs_flagByte ?_
  have := b.isLt
  rw [BitVec.getLsbD, Nat.testBit_eq_decide_div_mod_eq, decide_eq_true_iff]
  omega

theorem shiftOperand_eq {s : State} {x y : RegIdx} {src : Byte} (hvy : s.env.params.shiftSource = .vy → src = s.getV y)
    (hvx : s.env.params.shiftSource = .vx → src = s.getV x) : s.shiftOperand x y = src := by
  unfold State.shiftOperand
  cases h : s.env.params.shiftSource with
  | vy => exact (hvy h).symm
  | vx => exact (hvx h).symm

/-- A difference mod 256. -/
theorem sub_toNat_cast (a b : Byte) : ((a - b).toNat : Int) = ((a.toNat : Int) - (b.toNat : Int)) % 256 := by
  have := a.isLt
  have := b.isLt
  rw [BitVec.toNat_sub]
  omega

/-! ### The ALU statements -/

/-- Settles O9. -/
theorem logicActsBitByBitWithoutFlag : Obligations.LogicActsBitByBitWithoutFlag := by
  unfold Obligations.LogicActsBitByBitWithoutFlag
  intro s x y
  refine ⟨decodesTo_of_encode_wordXYN (op := 0x8) (n := 0x1) rfl rfl, decodesTo_of_encode_wordXYN (op := 0x8) (n := 0x2) rfl rfl,
    decodesTo_of_encode_wordXYN (op := 0x8) (n := 0x3) rfl rfl, ?_, ?_, ?_⟩
  · refine ⟨_, rfl, onlyRegsAndPc_result .., pcMoves_result .., fun j _ => ?_⟩
    rw [getV_result_self, BitVec.getLsbD_or]
  · refine ⟨_, rfl, onlyRegsAndPc_result .., pcMoves_result .., fun j _ => ?_⟩
    rw [getV_result_self, BitVec.getLsbD_and]
  · refine ⟨_, rfl, onlyRegsAndPc_result .., pcMoves_result .., fun j _ => ?_⟩
    rw [getV_result_self, BitVec.getLsbD_xor, Bool.bne_eq_xor]

/-- Settles O10: the destination is not VF, so both the result and the flag are read back. -/
theorem arithmeticStoresResultAndFlag : Obligations.ArithmeticStoresResultAndFlag := by
  unfold Obligations.ArithmeticStoresResultAndFlag
  intro s x y hx
  have hregs (b f : Byte) : OnlyRegsAndPc [x, vf] s (s.resultThenFlag x b f) :=
    onlyRegsAndPc_resultThenFlag s (by simp) (by simp) b f
  refine ⟨decodesTo_of_encode_wordXYN (op := 0x8) (n := 0x4) rfl rfl, decodesTo_of_encode_wordXYN (op := 0x8) (n := 0x5) rfl rfl,
    decodesTo_of_encode_wordXYN (op := 0x8) (n := 0x7) rfl rfl, ?_, ?_, ?_⟩
  · refine ⟨_, rfl, hregs .., pcMoves_resultThenFlag .., ?_, ?_⟩
    · rw [getV_resultThenFlag_self s hx, BitVec.toNat_add]
    · rw [getV_resultThenFlag_vf]
      exact flagIs_carryFlag ..
  · refine ⟨_, rfl, hregs .., pcMoves_resultThenFlag .., ?_, ?_⟩
    · rw [getV_resultThenFlag_self s hx, sub_toNat_cast]
    · rw [getV_resultThenFlag_vf]
      exact flagIs_noBorrowFlag ..
  · refine ⟨_, rfl, hregs .., pcMoves_resultThenFlag .., ?_, ?_⟩
    · rw [getV_resultThenFlag_self s hx, sub_toNat_cast]
    · rw [getV_resultThenFlag_vf]
      exact flagIs_noBorrowFlag ..

/-- Settles O11: both shifts read the parameter's source register. -/
theorem shiftsMoveOneBitOfTheSource : Obligations.ShiftsMoveOneBitOfTheSource := by
  unfold Obligations.ShiftsMoveOneBitOfTheSource
  intro s x y src hx hvy hvx
  have hsrc := shiftOperand_eq hvy hvx
  have hregs (b f : Byte) : OnlyRegsAndPc [x, vf] s (s.resultThenFlag x b f) :=
    onlyRegsAndPc_resultThenFlag s (by simp) (by simp) b f
  refine ⟨decodesTo_of_encode_wordXYN (op := 0x8) (n := 0x6) rfl rfl, decodesTo_of_encode_wordXYN (op := 0x8) (n := 0xE) rfl rfl,
    ?_, ?_⟩
  · refine ⟨_, rfl, hregs .., pcMoves_resultThenFlag .., ?_, ?_⟩
    · rw [getV_resultThenFlag_self s hx, hsrc, BitVec.toNat_ushiftRight, Nat.shiftRight_eq_div_pow, pow_one]
    · rw [getV_resultThenFlag_vf, hsrc]
      exact flagIs_shiftedOutRight src
  · refine ⟨_, rfl, hregs .., pcMoves_resultThenFlag .., ?_, ?_⟩
    · rw [getV_resultThenFlag_self s hx, hsrc, BitVec.toNat_shiftLeft, Nat.shiftLeft_eq, pow_one, Nat.mul_comm]
    · rw [getV_resultThenFlag_vf, hsrc]
      exact flagIs_shiftedOutLeft src

/-- Settles O12: the flag is written last, over the result. -/
theorem flagWinsWhenVfIsDestination : Obligations.FlagWinsWhenVfIsDestination := by
  unfold Obligations.FlagWinsWhenVfIsDestination
  intro s y src hvy hvx
  have hsrc := shiftOperand_eq hvy hvx
  have hflag {b f : Byte} {c : Prop} (hf : FlagIs f c) : OnlyRegsAndPc [vf] s (s.resultThenFlag vf b f) ∧
      PcMoves 2 s (s.resultThenFlag vf b f) ∧ FlagIs ((s.resultThenFlag vf b f).getV vf) c :=
    ⟨onlyRegsAndPc_resultThenFlag s (by simp) (by simp) b f, pcMoves_resultThenFlag .., by rwa [getV_resultThenFlag_vf]⟩
  exact ⟨⟨_, rfl, hflag (flagIs_carryFlag ..)⟩, ⟨_, rfl, hflag (flagIs_noBorrowFlag ..)⟩,
    ⟨_, rfl, hflag (flagIs_noBorrowFlag ..)⟩, ⟨_, rfl, hflag (hsrc ▸ flagIs_shiftedOutRight _)⟩,
    ⟨_, rfl, hflag (hsrc ▸ flagIs_shiftedOutLeft _)⟩⟩

theorem exec_random {s u : State} {r : Byte} (h : s.drawByte = (r, u)) (x : RegIdx) (kk : Byte) :
    exec (.random x kk) s = .next (u.result x (r &&& kk)) := by
  rw [exec, execRandom, h]

/-- Settles O13, by whether an injected byte is left. -/
theorem randomMasksOneDraw : Obligations.RandomMasksOneDraw := by
  unfold Obligations.RandomMasksOneDraw
  intro s x kk
  refine ⟨decodesTo_of_encode_wordXKK (op := 0xC) rfl rfl, ?_⟩
  have hregs (e : Environment) (b : Byte) : RegsKeptBut [x] s (({ s with env := e } : State).result x b) :=
    (onlyRegsAndPc_result { s with env := e } x b).2
  rcases drawByte_cases s with ⟨r, rest, hinjected, hdraw⟩ | ⟨hinjected, hdraw⟩
  · exact ⟨r, _, exec_random hdraw x kk, rfl, hregs _ _, next_toNat s, getV_result_self .., .inl ⟨hinjected, rfl⟩⟩
  · exact ⟨_, _, exec_random hdraw x kk, rfl, hregs _ _, next_toNat s, getV_result_self .., .inr ⟨hinjected, rfl, rfl⟩⟩

/-! ### Jumps and skips -/

/-- Settles O15. -/
theorem jumpOffsetAddsV0 : Obligations.JumpOffsetAddsV0 := by
  unfold Obligations.JumpOffsetAddsV0
  intro s nnn
  refine ⟨decodesTo_of_encode rfl (wordNNN_toNat 0xB nnn), _, rfl, onlyPc_setPc s _, ?_⟩
  rw [setPc_pc, BitVec.toNat_add, zext16_toNat, BitVec.toNat_setWidth_of_le (by decide)]

/-- The number of a word of format XYN, in the order the statements write it. -/
theorem wordXYN_toNat_eq (op : Nibble) (x y : RegIdx) (n : Nibble) :
    (wordXYN op x y n).toNat = op.toNat * 4096 + 256 * x.toNat + 16 * y.toNat + n.toNat := by
  rw [wordXYN_toNat]
  omega

/-- Settles O20: families 5 and 9 decode without their low nibble. -/
theorem skipsCompareTwoRegisters : Obligations.SkipsCompareTwoRegisters := by
  unfold Obligations.SkipsCompareTwoRegisters
  intro s x y n
  have h5 : decode (wordXYN 0x5 x y n) = .skipEqual x y := by
    rw [decode_of_op_five (w := wordXYN 0x5 x y n) (fieldOp_wordXYN ..), fieldX_wordXYN, fieldY_wordXYN]
  have h9 : decode (wordXYN 0x9 x y n) = .skipNotEqual x y := by
    rw [decode_of_op_nine (w := wordXYN 0x9 x y n) (fieldOp_wordXYN ..), fieldX_wordXYN, fieldY_wordXYN]
  exact ⟨decodesTo_of_word _ (wordXYN_toNat_eq 0x5 x y n) h5, decodesTo_of_word _ (wordXYN_toNat_eq 0x9 x y n) h9,
    ⟨_, rfl, onlyPc_skipIf s _, pcMoves_skipIf_eq s (s.getV x) (s.getV y)⟩,
    ⟨_, rfl, onlyPc_skipIf s _, pcMoves_skipIf_ne s (s.getV x) (s.getV y)⟩⟩

theorem pcMoves_skipIf_not (s : State) (c : Bool) : PcMoves (if c then 2 else 4) s (s.skipIf !c) := by
  cases c with
  | true => exact pcMoves_skipIf s false
  | false => exact pcMoves_skipIf s true

theorem lowNibble_toNat (b : Byte) : (lowNibble b).toNat = b.toNat % 16 := by
  rw [lowNibble, BitVec.extractLsb'_toNat, Nat.shiftRight_zero]

theorem keyNamedBy_eq {s : State} {x : RegIdx} {k : Nibble} (h : k.toNat = (s.getV x).toNat % 16) :
    s.keyNamedBy x = s.getKey k := by
  rw [State.keyNamedBy, BitVec.eq_of_toNat_eq ((lowNibble_toNat _).trans h.symm)]

/-- Settles O34: the low nibble of `V[x]` is the key's number. -/
theorem skipsOnKeyLevel : Obligations.SkipsOnKeyLevel := by
  unfold Obligations.SkipsOnKeyLevel
  intro s x k hk
  have hkey := keyNamedBy_eq hk
  have hE (kk : Byte) : (wordXKK 0xE x kk).toNat = 0xE000 + kk.toNat + 256 * x.toNat := by
    rw [wordXKK_toNat, show BitVec.toNat (0xE : Nibble) = 14 from rfl]
    omega
  refine ⟨decodesTo_of_encode rfl (hE 0x9E), decodesTo_of_encode rfl (hE 0xA1), ?_, ?_⟩
  · refine ⟨_, rfl, onlyPc_skipIf s _, ?_⟩
    rw [hkey]
    exact pcMoves_skipIf s (s.getKey k)
  · refine ⟨_, rfl, onlyPc_skipIf s _, ?_⟩
    rw [hkey]
    exact pcMoves_skipIf_not s (s.getKey k)

/-! ### Sys and Invalid (rules R111, R120) -/

theorem invalidOpcode_of_fatal {s : State} (w : Word) (h : s.env.params.invalidPolicy = .fatal) :
    s.invalidOpcode w = s.raise .invalidOpcode (some w) none := by
  rw [State.invalidOpcode, h]

theorem invalidOpcode_of_noop {s : State} (w : Word) (h : s.env.params.invalidPolicy = .noop) :
    s.invalidOpcode w = s.advance := by
  rw [State.invalidOpcode, h]

/-- Settles O21, by the policy. -/
theorem invalidFollowsPolicy : Obligations.InvalidFollowsPolicy := by
  unfold Obligations.InvalidFollowsPolicy
  intro s w
  refine ⟨fun hw => decodesTo_of_word w rfl ((decode_eq_invalid_iff w w).2 ⟨rfl, hw⟩), fun hfatal => ?_, fun hnoop => ?_⟩
  · exact ⟨_, congrArg Host.Outcome.next (invalidOpcode_of_fatal w hfatal), fatalEntry_raise ..⟩
  · exact ⟨_, congrArg Host.Outcome.next (invalidOpcode_of_noop w hnoop), onlyPc_setPc s _, next_toNat s⟩

theorem encode_sys_toNat (nnn : Address) : (encode (.sys nnn)).toNat = nnn.toNat :=
  (wordNNN_toNat 0x0 nnn).trans (Nat.zero_add _)

/-- Settles O22: Sys is Invalid of its own word. -/
theorem sysFollowsPolicy : Obligations.SysFollowsPolicy := by
  unfold Obligations.SysFollowsPolicy
  intro s nnn
  have hsame : exec (.sys nnn) s = exec (.invalid (BitVec.ofNat 16 nnn.toNat)) s := by
    rw [← encode_eq_ofNat (encode_sys_toNat nnn)]
    rfl
  obtain ⟨-, hfatal, hnoop⟩ := invalidFollowsPolicy s (BitVec.ofNat 16 nnn.toNat)
  refine ⟨fun hE0 hEE => decodesTo_of_encode ?_ (encode_sys_toNat nnn), hsame ▸ hfatal, hsame ▸ hnoop, hsame⟩
  have h1 : nnn ≠ 0x0E0 := fun h => hE0 (congrArg BitVec.toNat h)
  have h2 : nnn ≠ 0x0EE := fun h => hEE (congrArg BitVec.toNat h)
  simpa [Instr.wellFormed] using And.intro h1 h2

/-! ### The index register -/

theorem glyphOf_toNat (b : Byte) : (glyphOf b).toNat = 0x000 + 5 * (b.toNat % 16) := by
  rw [glyphOf, lowNibble_toNat, Config.fontBase, BitVec.toNat_ofNat]
  omega

/-- Settles O24. -/
theorem addIAndGlyphAddressWriteI : Obligations.AddIAndGlyphAddressWriteI := by
  unfold Obligations.AddIAndGlyphAddressWriteI
  intro s x
  refine ⟨decodesTo_of_encode rfl (wordXKK_F_toNat x 0x1E), decodesTo_of_encode rfl (wordXKK_F_toNat x 0x29),
    ⟨_, rfl, rfl, next_toNat s, ?_⟩, ⟨_, rfl, rfl, next_toNat s, glyphOf_toNat _⟩⟩
  rw [advance_i, setI_i, BitVec.toNat_add, BitVec.toNat_setWidth_of_le (by decide)]

end Sys2Proof.Machine
end
